-- ==== Sys2Proof/Word.lean ====
section
/-! DEFINITION. The three widths of the block (00_scope.md R14): an 8-bit container, a 16-bit segment pattern,
and, at Level B only, a 16-bit command word; and the three index ranges (R8, R9, 10_state.md R19). -/

namespace Sys2Proof

/-- One container of the display buffer: `CONT_BITS` = 8 (00_scope.md R10). -/
abbrev Byte := BitVec 8

/-- A Level B command word (30_encoding.md R59). -/
abbrev Word := BitVec 16

/-- An entry of the segment table (10_state.md R19). -/
abbrev Pattern := BitVec 16

/-- `N_CELLS` = 27: cell indices are 0 to 26 (00_scope.md R8). -/
abbrev CellIndex := Fin 27

/-- `N_DIGITS` = 9: valid digit positions are 0 to 8 (00_scope.md R9). -/
abbrev DigitPosition := Fin 9

/-- Digit values 0 to 15, the hexadecimal digits (10_state.md R19, 41_set_digit.md R90). -/
abbrev DigitValue := Fin 16

end Sys2Proof
end

