-- ==== Sys2Proof/Config.lean ====
section
/-! DEFINITION. What an implementation fixes (00_scope.md section 3): the constant tables, the icon count, the
command tokens; the one free value (the power-on contents of the buffer); and `cfgTest`, the complete instantiation
the spec supplies (95_test_vectors.md section 1), which is not the reference mapping. -/

namespace Sys2Proof

/-- An entry of the icon table: a cell index and a single-bit mask within that cell (10_state.md R23).
The cell is a plain number here; that it lies in 0..26 is R27, checked in WellFormed.lean. -/
structure IconEntry where
  cell : Nat
  mask : Byte
  deriving DecidableEq, Repr

/-- A transport command code: an opaque token (00_scope.md R13). The number is its name only; nothing in the
model computes with it (DESIGN CHOICE, log 5). -/
structure CmdToken where
  name : Nat
  deriving DecidableEq, Repr

/-- A configuration: a choice of `N_ICONS`, `ROOM_ID`, `SEG`, `POS_BASE`, `ICON` and the three command tokens
(10_state.md section 3). Raw data; `Configuration` (WellFormed.lean) pairs it with its well-formedness. -/
structure Config where
  /-- `N_ICONS` (R11). -/
  nIcons   : Nat
  /-- `ROOM_ID`, the index of the icon `ROOM` (R11). -/
  roomId   : Nat
  /-- `SEG`, 16 entries (R19, R24). -/
  seg      : Vector Pattern 16
  /-- `POS_BASE`, 9 entries (R21, R24). -/
  posBase  : Vector Nat 9
  /-- `ICON` (R23). -/
  icon     : List IconEntry
  /-- `CMD_SYS_EN` (R13). -/
  cmdSysEn : CmdToken
  /-- `CMD_LCD_ON` (R13). -/
  cmdLcdOn : CmdToken
  /-- `CMD_BIAS` (R13). -/
  cmdBias  : CmdToken
  deriving DecidableEq, Repr

/-- What container `i` holds after power-on: any value (10_state.md R36, 92_eei_decisions.md D6). A free value:
no proof can see what it is (DESIGN CHOICE, log 2). -/
opaque Config.powerOnByte : Nat → Byte

/-- `CFG_TEST` (95_test_vectors.md section 1): the spec's own test configuration, not the reference mapping
(D11). Its command tokens are the model's (DESIGN CHOICE, log 4, log 5). -/
def cfgTest : Config where
  nIcons  := 8
  roomId  := 0
  seg     := #v[0x030F#16, 0x0006#16, 0x050B#16, 0x040F#16, 0x0606#16, 0x060D#16, 0x070D#16, 0x0007#16,
                0x070F#16, 0x060F#16, 0x0707#16, 0x070C#16, 0x0309#16, 0x050E#16, 0x0709#16, 0x0701#16]
  posBase := #v[0, 2, 4, 7, 9, 11, 14, 16, 18]
  icon    := [⟨6, 0x01#8⟩, ⟨6, 0x02#8⟩, ⟨13, 0x08#8⟩, ⟨20, 0x04#8⟩, ⟨1, 0x08#8⟩, ⟨26, 0x01#8⟩, ⟨20, 0x01#8⟩,
              ⟨8, 0x08#8⟩]
  cmdSysEn := ⟨0⟩
  cmdLcdOn := ⟨1⟩
  cmdBias  := ⟨2⟩

end Sys2Proof
end

