-- ==== Sys2Proof/Machine/Bits.lean ====
section
/-! DEFINITION. The bit operations of 00_scope.md section 4: the two bytes of a pattern, the 8-bit complement. -/

namespace Sys2Proof.Machine

/-- `s[7:0]`, the lower byte of a pattern: it goes to the first cell (20_memory.md R39). -/
def lowerByte (s : Pattern) : Byte := s.extractLsb' 0 8

/-- `s[15:8]`, the upper byte of a pattern: it goes to the second cell (20_memory.md R39). -/
def upperByte (s : Pattern) : Byte := s.extractLsb' 8 8

/-- The concatenation of an upper and a lower byte, the upper in the high bits: how a digit is read back
(20_memory.md R39). -/
def joinBytes (hi lo : Byte) : Pattern := hi ++ lo

/-- `not_8(a) = 0xFF xor a` (00_scope.md section 4). -/
def not8 (a : Byte) : Byte := 0xFF#8 ^^^ a

end Sys2Proof.Machine
end

