-- ==== Sys2Proof/Syntax.lean ====
section
/-! DEFINITION. The operations: one constructor per row of spec/opcode_table.json, and the shape of a row of that
table. -/

namespace Sys2Proof

/-- One operation. The five operations are Level A (30_encoding.md R58): the operands of `setDigit` are mathematical
integers, negative ones included (00_scope.md section 4, 41_set_digit.md R85), and an icon is named by its index.
The four `reserved` constructors are the reserved rows of Level B (R66, R67); they keep the word's remaining bits so
that no bit is lost in decoding, and nothing reads those bits but the encoder (DESIGN CHOICE, log 11). -/
inductive Instr where
  /-- INIT, `initialize()` (R75). -/
  | init
  /-- CLEAR, `clear()` (R78). -/
  | clear
  /-- UPDATE, `update()` (R81). -/
  | update
  /-- SET_DIGIT, `set_digit(position, value)` (R84). -/
  | setDigit (position value : Int)
  /-- SET_ICON, `set_icon(icon, enabled)` (R93). -/
  | setIcon (icon : Nat) (enabled : Bool)
  /-- RESERVED.OPC0: opcode 0x0, with bits 11:0 (R66). -/
  | reservedOpc0 (rest : BitVec 12)
  /-- RESERVED.OPC6_7: opcode 0x6 or 0x7, with bits 12:0 (R66). -/
  | reservedOpc67 (rest : BitVec 13)
  /-- RESERVED.OPC8_F: opcode 0x8 to 0xF, with bits 14:0 (R66). -/
  | reservedOpc8F (rest : BitVec 15)
  /-- RESERVED.ICON: opcode 0x5 whose `ICON` field names no icon, with bits 11:9, `EN` and `ICON` (R67). -/
  | reservedIcon (ignored : BitVec 3) (enabled : Bool) (icon : Byte)
  deriving DecidableEq, Repr

/-- The extra condition a row of the opcode map puts on a word (30_encoding.md R64, R67). -/
inductive RowCondition where
  /-- No condition beyond the match and the mask. -/
  | always
  /-- `W[7:0] < N_ICONS`. -/
  | iconNamed
  /-- `W[7:0] >= N_ICONS`. -/
  | iconUnnamed
  deriving DecidableEq, Repr

/-- A row of the opcode map: a word `W` selects it when `W and mask = match` (30_encoding.md R64). -/
structure OpcodeRow where
  mnemonic  : String
  pattern   : Word
  mask      : Word
  condition : RowCondition
  deriving DecidableEq, Repr

end Sys2Proof
end

