-- ==== Sys2Proof/WellFormed.lean ====
section
/-! DEFINITION. Well-formedness: of a configuration (00_scope.md R11, R13; 10_state.md R24 to R31, one predicate per
check), the type `Configuration` that carries it (93_implementation_defined.md U2), and of an operation. -/

namespace Sys2Proof

open Machine

/-- `1 <= N_ICONS <= 256` (00_scope.md R11). -/
abbrev Config.IconCountInRange (c : Config) : Prop := 1 ≤ c.nIcons ∧ c.nIcons ≤ 256

/-- `0 <= ROOM_ID < N_ICONS` (00_scope.md R11). -/
abbrev Config.RoomIsIcon (c : Config) : Prop := c.roomId < c.nIcons

/-- The three command tokens are distinct (00_scope.md R13). -/
abbrev Config.CommandsDistinct (c : Config) : Prop :=
  c.cmdSysEn ≠ c.cmdLcdOn ∧ c.cmdSysEn ≠ c.cmdBias ∧ c.cmdLcdOn ≠ c.cmdBias

/-- `ICON` has `N_ICONS` entries (10_state.md R24; the sizes of `SEG` and `POS_BASE` are in their types). -/
abbrev Config.IconTableSize (c : Config) : Prop := c.icon.length = c.nIcons

/-- The pinned entry `SEG[9] = 0x060F` (10_state.md R24). -/
abbrev Config.NinePinned (c : Config) : Prop := c.seg[9] = 0x060F#16

/-- `POS_BASE[p] + 1 <= 26` for every position (10_state.md R25). -/
abbrev Config.DigitCellsInRange (c : Config) : Prop := ∀ p : DigitPosition, c.posBase[p] + 1 ≤ 26

/-- Two positions have no cell in common (10_state.md R26). -/
abbrev Config.DigitPairsDisjoint (c : Config) : Prop :=
  ∀ p q : DigitPosition, p ≠ q →
    c.posBase[p] ≠ c.posBase[q] ∧ c.posBase[p] ≠ c.posBase[q] + 1 ∧ c.posBase[p] + 1 ≠ c.posBase[q]

/-- `0 <= ICON[i].cell <= 26` for every icon (10_state.md R27). -/
abbrev Config.IconCellsInRange (c : Config) : Prop := ∀ e ∈ c.icon, e.cell ≤ 26

/-- Every icon mask is one of the eight one-bit masks (10_state.md R28). -/
abbrev Config.IconMasksOneHot (c : Config) : Prop :=
  ∀ e ∈ c.icon, e.mask ∈ [0x01#8, 0x02#8, 0x04#8, 0x08#8, 0x10#8, 0x20#8, 0x40#8, 0x80#8]

/-- Two icons never share a (cell, mask) pair (10_state.md R29). -/
abbrev Config.IconBitsUnique (c : Config) : Prop := c.icon.Nodup

/-- `SEG[v] and 0xF0F0 = 0` for every value (10_state.md R30). -/
abbrev Config.SegmentsInLowNibble (c : Config) : Prop := ∀ v : DigitValue, c.seg[v] &&& 0xF0F0#16 = 0#16

/-- No icon bit in a digit's cell is a segment bit of that cell (10_state.md R31). -/
abbrev Config.DigitIconBitsDisjoint (c : Config) : Prop :=
  ∀ e ∈ c.icon, ∀ p : DigitPosition, ∀ v : DigitValue,
    (e.cell = c.posBase[p] → e.mask &&& lowerByte c.seg[v] = 0#8) ∧
    (e.cell = c.posBase[p] + 1 → e.mask &&& upperByte c.seg[v] = 0#8)

/-- A configuration is well-formed when R11, R13 and R24 to R31 all hold (10_state.md section 3). -/
abbrev Config.Wf (c : Config) : Prop :=
  c.IconCountInRange ∧ c.RoomIsIcon ∧ c.CommandsDistinct ∧ c.IconTableSize ∧ c.NinePinned ∧
  c.DigitCellsInRange ∧ c.DigitPairsDisjoint ∧ c.IconCellsInRange ∧ c.IconMasksOneHot ∧
  c.IconBitsUnique ∧ c.SegmentsInLowNibble ∧ c.DigitIconBitsDisjoint

/-- A well-formed configuration: "an ill-formed configuration is not a configuration"
(93_implementation_defined.md U2). -/
structure Configuration where
  data : Config
  wf   : data.Wf
  deriving DecidableEq, Repr

/-- The model's refusal of a configuration: nothing is made of one that is not well-formed (10_state.md
section 3, 92_eei_decisions.md D21). -/
def Configuration.check? (c : Config) : Option Configuration :=
  if h : c.Wf then some ⟨c, h⟩ else none

/-- `CFG_TEST` is well-formed (95_test_vectors.md section 1). -/
theorem cfgTest_wf : cfgTest.Wf := by decide

/-- `CFG_TEST` as a configuration. -/
def Configuration.test : Configuration := ⟨cfgTest, cfgTest_wf⟩

/-- Whether an operation has a command word under a given `N_ICONS`: the operands fit their fields
(30_encoding.md R61, R62) and an icon is one of the enumeration (R67, 42_set_icon.md R94). -/
def Instr.wf (nIcons : Nat) : Instr → Bool
  | .init => true
  | .clear => true
  | .update => true
  | .setDigit p v => decide (0 ≤ p) && decide (p ≤ 15) && decide (0 ≤ v) && decide (v ≤ 255)
  | .setIcon i _ => decide (i < nIcons)
  | .reservedOpc0 _ => true
  | .reservedOpc67 _ => true
  | .reservedOpc8F _ => true
  | .reservedIcon _ _ i => decide (nIcons ≤ i.toNat)

end Sys2Proof
end

