-- ==== Sys2Proof/Decode.lean ====
section
/-! DEFINITION. The command word (30_encoding.md sections 2 to 5): the decoder, total on every word, the opcode map,
and the encoder, which writes the canonical word. Level B is the spec's own (92_eei_decisions.md D2; log 10). -/

namespace Sys2Proof

/-- `OPC = W[15:12]` (30_encoding.md R59). -/
def fieldOpc (w : Word) : BitVec 4 := w.extractLsb' 12 4

/-- `POS = W[11:8]` (30_encoding.md R61). -/
def fieldPos (w : Word) : BitVec 4 := w.extractLsb' 8 4

/-- `VAL = W[7:0]` (30_encoding.md R61). -/
def fieldVal (w : Word) : BitVec 8 := w.extractLsb' 0 8

/-- `EN = W[8]`, 1 for true (30_encoding.md R62). -/
def fieldEn (w : Word) : Bool := w.getLsbD 8

/-- `ICON = W[7:0]` (30_encoding.md R62). -/
def fieldIcon (w : Word) : BitVec 8 := w.extractLsb' 0 8

/-- `W[11:9]`, ignored in format I (30_encoding.md R60, R65). -/
def fieldIgnored (w : Word) : BitVec 3 := w.extractLsb' 9 3

/-- The operation a word selects, given `N_ICONS` (30_encoding.md R63). Every word decodes: a word with a reserved
opcode or with an `ICON` field that names no icon decodes to one of the reserved constructors (R66, R67), never to a
refusal. Operands are taken from their fields as unsigned integers. -/
def decode (nIcons : Nat) (w : Word) : Instr :=
  match (fieldOpc w).toNat with
  | 0 => .reservedOpc0 (w.extractLsb' 0 12)
  | 1 => .init
  | 2 => .clear
  | 3 => .update
  | 4 => .setDigit (fieldPos w).toNat (fieldVal w).toNat
  | 5 =>
    if (fieldIcon w).toNat < nIcons then .setIcon (fieldIcon w).toNat (fieldEn w)
    else .reservedIcon (fieldIgnored w) (fieldEn w) (fieldIcon w)
  | 6 => .reservedOpc67 (w.extractLsb' 0 13)
  | 7 => .reservedOpc67 (w.extractLsb' 0 13)
  | _ => .reservedOpc8F (w.extractLsb' 0 15)

/-- The canonical command word of an operation: ignored bits zero (30_encoding.md R65), `0x4000 or (p << 8) or v`
for SET_DIGIT (41_set_digit.md R84), `0x5000 or (e << 8) or i` for SET_ICON (42_set_icon.md R93). Meant for
well-formed operations. -/
def encode : Instr → Word
  | .init => 0x1000#16
  | .clear => 0x2000#16
  | .update => 0x3000#16
  | .setDigit p v => 0x4000#16 ||| (BitVec.ofNat 16 p.toNat <<< 8) ||| BitVec.ofNat 16 v.toNat
  | .setIcon i e => 0x5000#16 ||| (if e then 0x0100#16 else 0#16) ||| BitVec.ofNat 16 i
  | .reservedOpc0 r => r.setWidth 16
  | .reservedOpc67 r => 0x6000#16 ||| r.setWidth 16
  | .reservedOpc8F r => 0x8000#16 ||| r.setWidth 16
  | .reservedIcon x e i =>
    0x5000#16 ||| (x.setWidth 16 <<< 9) ||| (if e then 0x0100#16 else 0#16) ||| i.setWidth 16

/-- The opcode map (30_encoding.md R64 and spec/opcode_table.json): mnemonic, match, mask, and the condition on the
`ICON` field. -/
def opcodeRows : List OpcodeRow :=
  [⟨"INIT", 0x1000#16, 0xF000#16, .always⟩,
   ⟨"CLEAR", 0x2000#16, 0xF000#16, .always⟩,
   ⟨"UPDATE", 0x3000#16, 0xF000#16, .always⟩,
   ⟨"SET_DIGIT", 0x4000#16, 0xF000#16, .always⟩,
   ⟨"SET_ICON", 0x5000#16, 0xF000#16, .iconNamed⟩,
   ⟨"RESERVED.OPC0", 0x0000#16, 0xF000#16, .always⟩,
   ⟨"RESERVED.OPC6_7", 0x6000#16, 0xE000#16, .always⟩,
   ⟨"RESERVED.OPC8_F", 0x8000#16, 0x8000#16, .always⟩,
   ⟨"RESERVED.ICON", 0x5000#16, 0xF000#16, .iconUnnamed⟩]

/-- Whether a word selects a row: `W and mask = match`, and the row's condition (30_encoding.md R64). -/
def OpcodeRow.selects (nIcons : Nat) (r : OpcodeRow) (w : Word) : Bool :=
  (w &&& r.mask == r.pattern) &&
    match r.condition with
    | .always => true
    | .iconNamed => decide ((w.extractLsb' 0 8).toNat < nIcons)
    | .iconUnnamed => decide (nIcons ≤ (w.extractLsb' 0 8).toNat)

/-- The mnemonic of an operation's row in the opcode table. -/
def Instr.mnemonic : Instr → String
  | .init => "INIT"
  | .clear => "CLEAR"
  | .update => "UPDATE"
  | .setDigit _ _ => "SET_DIGIT"
  | .setIcon _ _ => "SET_ICON"
  | .reservedOpc0 _ => "RESERVED.OPC0"
  | .reservedOpc67 _ => "RESERVED.OPC6_7"
  | .reservedOpc8F _ => "RESERVED.OPC8_F"
  | .reservedIcon _ _ _ => "RESERVED.ICON"

/-- The word that `nbits` bits of a table row stand for; bits above them are 0. -/
def tableWord (nbits w : Nat) : Word := BitVec.ofNat 16 (w % 2 ^ nbits)

/-- What the decoder reads from the table's word `w` of `nbits` bits, under the `N_ICONS` of `CFG_TEST`, the
configuration of `State.reset` (log 4). A command is one 16-bit word (30_encoding.md R59): more than 16 bits are no
command word. -/
def decodeTableWord (nbits w : Nat) : Option Instr :=
  if nbits ≤ 16 then some (decode cfgTest.nIcons (tableWord nbits w)) else none

end Sys2Proof
end

