-- ==== Sys2Proof/Machine/Operands.lean ====
section
/-! DEFINITION. Operand forms: the table reads (10_state.md R19 to R23) on a well-formed configuration, the range test
of SET_DIGIT's operands (41_set_digit.md R85), the icon operand of SET_ICON (42_set_icon.md R94). -/

namespace Sys2Proof.Machine

/-- `CELL_LO(p) = POS_BASE[p]`, the first cell of a position (10_state.md R22). -/
def cellLo (c : Configuration) (p : DigitPosition) : CellIndex :=
  ⟨c.data.posBase[p], by
    obtain ⟨_, _, _, _, _, h, _⟩ := c.wf
    have := h p
    omega⟩

/-- `CELL_HI(p) = POS_BASE[p] + 1`, the second cell of a position (10_state.md R22; log 10). -/
def cellHi (c : Configuration) (p : DigitPosition) : CellIndex :=
  ⟨c.data.posBase[p] + 1, by
    obtain ⟨_, _, _, _, _, h, _⟩ := c.wf
    have := h p
    omega⟩

/-- `SEG[v]` (10_state.md R19). -/
def segPattern (c : Configuration) (v : DigitValue) : Pattern := c.data.seg[v]

/-- `SEG[v][7:0]`, the byte of the first cell (20_memory.md R39). -/
def segLo (c : Configuration) (v : DigitValue) : Byte := lowerByte (segPattern c v)

/-- `SEG[v][15:8]`, the byte of the second cell (20_memory.md R39). -/
def segHi (c : Configuration) (v : DigitValue) : Byte := upperByte (segPattern c v)

/-- What an icon operand stands for: the cell and the one-bit mask of `ICON[i]`, the cell in range
(10_state.md R23, R27). -/
structure IconBit where
  cell : CellIndex
  mask : Byte
  deriving DecidableEq, Repr

/-- `ICON[i]` for an icon of the enumeration; `none` for an index that names no icon, for which no table lookup
exists (10_state.md R23, 42_set_icon.md R94, 93_implementation_defined.md U1). -/
def iconOperand (c : Configuration) (i : Nat) : Option IconBit :=
  if h : i < c.data.icon.length then
    some ⟨⟨c.data.icon[i].cell, by
      obtain ⟨_, _, _, _, _, _, _, hc, _⟩ := c.wf
      have := hc _ (List.getElem_mem h)
      omega⟩, c.data.icon[i].mask⟩
  else none

/-- The operands of SET_DIGIT when both are in range, `none` when either is not: position in 0..8 and value in 0..15,
negative integers included among the out-of-range ones (41_set_digit.md R85). -/
def digitOperands (position value : Int) : Option (DigitPosition × DigitValue) :=
  if h : 0 ≤ position ∧ position < 9 ∧ 0 ≤ value ∧ value ≤ 15 then
    some (⟨position.toNat, by omega⟩, ⟨value.toNat, by omega⟩)
  else none

end Sys2Proof.Machine
end

