-- ==== Sys2Proof/Machine/State.lean ====
section
/-! DEFINITION. The state of the machine, the transport events, the reasons a step can stop, and reset. -/

namespace Sys2Proof.Machine

/-- A call of the transport, recorded (30_encoding.md section 7). -/
inductive Event where
  /-- `T_CTRL_INIT`: a call of `controller_init()` (R70). -/
  | ctrlInit
  /-- `T_CMD(code)`: a call of `write_command(code)` (R71). -/
  | cmd (code : CmdToken)
  /-- `T_WRITE(start, len, data)`: a call of `write_range`, with the containers as they are at that instant (R72). -/
  | write (start len : Nat) (data : List Byte)
  deriving DecidableEq, Repr

/-- The display buffer `BUF`: 27 containers of 8 bits, fixed length, dense (10_state.md R15, R17; log 1). -/
abbrev Buffer := Vector Byte 27

/-- Why a step faults. It has no constructor: the block raises no exception for any operation and any operands and
has no fault state and no stuck state (60_exceptions.md R100, R107, R116). -/
inductive Fault
  deriving DecidableEq, Repr

/-- Why the model gives an operation no meaning. -/
inductive Refusal where
  /-- Raised by exec's arm of an instruction that has no meaning yet (no arm does). Safe: the model stops. -/
  | notModelled (mnemonic : String)
  /-- Raised by SET_ICON when its operand is no member of the closed enumeration: a term the spec says cannot be
  written (42_set_icon.md R94, 93_implementation_defined.md U1); no command word decodes to one. Safe: the model
  stops where the spec defines nothing (log 9). -/
  | iconNotInEnumeration (icon : Nat)
  deriving DecidableEq, Repr

/-- The machine. `buf` is the block's only mutable state (10_state.md R18); `cfg` is its constant tables and
parameters (R19 to R24, R55; log 3); `trace` is the output trace, an observation device (30_encoding.md R73; log 14);
`input` is the host's: the command words it has yet to present, the next one first (R59; log 6). -/
structure State where
  cfg   : Configuration
  buf   : Buffer
  trace : List Event
  input : List Word
  deriving DecidableEq, Repr

/-- The state after reset, for a configuration and any content of the buffer: the tables at their configured values,
27 arbitrary bytes, nothing emitted (10_state.md R36), nothing issued by the host yet (70_reset_and_hazards.md R118). -/
def State.resetOf (cfg : Configuration) (contents : Buffer) : State where
  cfg   := cfg
  buf   := contents
  trace := []
  input := []

/-- The power-on content of the buffer: a free value in every container (10_state.md R36; log 2). -/
def powerOnBuffer : Buffer := Vector.ofFn fun i : CellIndex => Config.powerOnByte i

/-- The machine right after reset, with the configuration the spec supplies for concrete runs (log 4) and free buffer
contents (log 2). -/
def State.reset : State := State.resetOf Configuration.test powerOnBuffer

end Sys2Proof.Machine
end

