-- ==== Sys2Proof/Machine/Ops.lean ====
section
/-! DEFINITION. The shared operations over the buffer and the output trace (20_memory.md, 30_encoding.md section 7),
and the views of a state that claims are stated in: a digit read back, an icon's bit, the display image. There is no
exception entry to share and no flag to compute: the block has neither (60_exceptions.md R107, 10_state.md R34). -/

namespace Sys2Proof.Machine

/-- `BUF[c]`: a whole container; reading has no side effect (20_memory.md R45, R46). -/
def State.cell (s : State) (c : CellIndex) : Byte := s.buf[c]

/-- `BUF[c] <- b`: all 8 bits of one container (20_memory.md R45). -/
def State.setCell (s : State) (c : CellIndex) (b : Byte) : State := { s with buf := s.buf.set c b }

/-- `MemRead(addr, n)`: the `n` containers from cell `addr` on, in ascending order (00_scope.md section 4). -/
def State.memRead (s : State) (addr n : Nat) : List Byte := (s.buf.toList.drop addr).take n

/-- `emit E`: append an event to the output trace (00_scope.md section 4, 30_encoding.md R73). -/
def State.emit (s : State) (e : Event) : State := { s with trace := s.trace ++ [e] }

/-- The buffer with every container zero. -/
def zeroBuffer : Buffer := Vector.replicate 27 0#8

/-- `for i in 0 .. 26: BUF[i] <- 0x00`, all 8 bits of every container (40_lifecycle_ops.md R78). The order of the 27
stores is not observable (20_memory.md R47). -/
def State.zero (s : State) : State := { s with buf := zeroBuffer }

/-- `emit T_WRITE(0, 27, [BUF[0], ..., BUF[26]])`: the whole buffer, in ascending order, as it is now
(40_lifecycle_ops.md R81, 20_memory.md R41, R51). -/
def State.flush (s : State) : State := s.emit (.write 0 27 (s.memRead 0 27))

/-- The three bring-up events of INIT, in order (40_lifecycle_ops.md R75; the order is decision D4, log 10). -/
def State.bringUp (s : State) : State :=
  ((s.emit .ctrlInit).emit (.cmd s.cfg.data.cmdSysEn)).emit (.cmd s.cfg.data.cmdLcdOn)

/-- `BUF[c] <- BUF[c] xor 0x0F`: invert the low nibble of a cell (41_set_digit.md R84, step 1). -/
def State.invertLowNibble (s : State) (c : CellIndex) : State := s.setCell c (s.cell c ^^^ 0x0F#8)

/-- Set or clear the bit of an icon in its container: OR with the mask, or AND with the mask's 8-bit complement
(42_set_icon.md R93). -/
def State.setIconBit (s : State) (b : IconBit) (enabled : Bool) : State :=
  s.setCell b.cell (if enabled then s.cell b.cell ||| b.mask else s.cell b.cell &&& not8 b.mask)

/-- Reading digit `p` back: `{BUF[CELL_HI(p)], BUF[CELL_LO(p)]}` (20_memory.md R39). A view of the model, not a port
(30_encoding.md R74). -/
def State.readDigit (s : State) (p : DigitPosition) : Pattern :=
  joinBytes (s.cell (cellHi s.cfg p)) (s.cell (cellLo s.cfg p))

/-- Whether an icon's bit is set in the buffer. A view of the model, not a port. -/
def State.iconOn (s : State) (b : IconBit) : Bool := s.cell b.cell &&& b.mask != 0#8

/-- The display image `IMG` as a function of the output trace: undefined until the first `T_WRITE`, then the data of
the last one (10_state.md R35). -/
def displayImage : List Event → Option (List Byte)
  | [] => none
  | .ctrlInit :: es => displayImage es
  | .cmd _ :: es => displayImage es
  | .write _ _ data :: es => some ((displayImage es).getD data)

end Sys2Proof.Machine
end

