-- ==== Sys2Proof/Machine/Digit.lean ====
section
/-! DEFINITION. SET_DIGIT (41_set_digit.md). -/

namespace Sys2Proof.Machine

/-- The two steps of an in-range SET_DIGIT (R84): invert the low nibble of both cells, then overwrite both cells whole
with the bytes of the pattern. The first step leaves no trace in the result (R86); it is kept for fidelity
(92_eei_decisions.md D10). -/
def State.stageDigit (s : State) (p : DigitPosition) (v : DigitValue) : State :=
  let c0 := cellLo s.cfg p
  let c1 := cellHi s.cfg p
  (((s.invertLowNibble c0).invertLowNibble c1).setCell c0 (segLo s.cfg v)).setCell c1 (segHi s.cfg v)

/-- SET_DIGIT (R84): a silent no-op when an operand is out of range (R85), else the digit staged; no event (R89). -/
def execSetDigit (position value : Int) (s : State) : Host.Outcome State Fault Refusal :=
  match digitOperands position value with
  | none => .next s
  | some (p, v) => .next (s.stageDigit p v)

end Sys2Proof.Machine
end

