-- ==== Sys2Proof/Machine/Icon.lean ====
section
/-! DEFINITION. SET_ICON (42_set_icon.md). -/

namespace Sys2Proof.Machine

/-- SET_ICON (R93): set or clear the icon's bit; no event (R97). An operand that is no icon of the enumeration has no
meaning (R94) and is refused by name (log 9). -/
def execSetIcon (icon : Nat) (enabled : Bool) (s : State) : Host.Outcome State Fault Refusal :=
  match iconOperand s.cfg icon with
  | none => .refused (.iconNotInEnumeration icon)
  | some b => .next (s.setIconBit b enabled)

end Sys2Proof.Machine
end

