-- ==== Sys2Proof/Machine/Lifecycle.lean ====
section
/-! DEFINITION. The lifecycle operations INIT, CLEAR and UPDATE (40_lifecycle_ops.md). -/

namespace Sys2Proof.Machine

/-- INIT (R75): the three bring-up events, the buffer zeroed, the zeroed buffer flushed, then the bias command, in
this order (R76). It reads no table. -/
def execInit (s : State) : Host.Outcome State Fault Refusal :=
  .next (s.bringUp.zero.flush.emit (.cmd s.cfg.data.cmdBias))

/-- CLEAR (R78): the buffer zeroed, no event. -/
def execClear (s : State) : Host.Outcome State Fault Refusal :=
  .next s.zero

/-- UPDATE (R81): one `T_WRITE` of the whole buffer; the buffer unchanged. -/
def execUpdate (s : State) : Host.Outcome State Fault Refusal :=
  .next s.flush

end Sys2Proof.Machine
end

