-- ==== Sys2Proof/Machine/Reserved.lean ====
section
/-! DEFINITION. The reserved command words: silent no-ops, whatever their other bits (30_encoding.md R66, R67;
60_exceptions.md R102; the no-op is decision D7, log 10). -/

namespace Sys2Proof.Machine

/-- A reserved word with opcode 0x0 (R66). -/
def execReservedOpc0 (_rest : BitVec 12) (s : State) : Host.Outcome State Fault Refusal := .next s

/-- A reserved word with opcode 0x6 or 0x7 (R66). -/
def execReservedOpc67 (_rest : BitVec 13) (s : State) : Host.Outcome State Fault Refusal := .next s

/-- A reserved word with opcode 0x8 to 0xF (R66). -/
def execReservedOpc8F (_rest : BitVec 15) (s : State) : Host.Outcome State Fault Refusal := .next s

/-- A format I word whose `ICON` field names no icon (R67): no table lookup. -/
def execReservedIcon (_ignored : BitVec 3) (_enabled : Bool) (_icon : Byte) (s : State) :
    Host.Outcome State Fault Refusal := .next s

end Sys2Proof.Machine
end

