-- ==== Sys2Proof/Machine/Dispatch.lean ====
section
/-! DEFINITION. One arm per operation: each calls its meaning. -/

namespace Sys2Proof.Machine

/-- The effect of one operation, as one atomic step (20_memory.md R47). -/
def exec (i : Instr) (s : State) : Host.Outcome State Fault Refusal :=
  match i with
  | .init => Sys2Proof.Machine.execInit s
  | .clear => Sys2Proof.Machine.execClear s
  | .update => Sys2Proof.Machine.execUpdate s
  | .setDigit position value => Sys2Proof.Machine.execSetDigit position value s
  | .setIcon icon enabled => Sys2Proof.Machine.execSetIcon icon enabled s
  | .reservedOpc0 rest => Sys2Proof.Machine.execReservedOpc0 rest s
  | .reservedOpc67 rest => Sys2Proof.Machine.execReservedOpc67 rest s
  | .reservedOpc8F rest => Sys2Proof.Machine.execReservedOpc8F rest s
  | .reservedIcon ignored enabled icon => Sys2Proof.Machine.execReservedIcon ignored enabled icon s

end Sys2Proof.Machine
end

