-- ==== Sys2Proof/Machine/Step.lean ====
section
/-! DEFINITION. One step: the block takes the next word the host presents and performs the operation it decodes to,
completely (30_encoding.md R59). -/

namespace Sys2Proof.Machine

/-- One step. When the host has presented nothing the block idles, holding everything (60_exceptions.md R115,
70_reset_and_hazards.md R118, R134; log 7). -/
def step (s : State) : Host.Outcome State Fault Refusal :=
  match s.input with
  | [] => .next s
  | w :: rest => exec (decode s.cfg.data.nIcons w) { s with input := rest }

/-- The state with a word of the opcode table as the next word the host presents (log 6). -/
def State.withFetchWord (s : State) (nbits w : Nat) : State := { s with input := tableWord nbits w :: s.input }

end Sys2Proof.Machine
end

