-- ==== Sys2Proof/Machine/Assembly.lean ====
section
/-! DEFINITION. The assembler syntax (30_encoding.md R69): one operation per line, `;` to the end of the line a comment,
the mnemonic form `SET_DIGIT p, v` and the source's call form `set_digit(p, v)`. Text is a list of characters.
Lexical details the rule leaves open are log 15. -/

namespace Sys2Proof.Machine

/-- A token of a line. -/
inductive AsmToken where
  | word (cs : List Char)
  | comma
  | lparen
  | rparen
  deriving DecidableEq, Repr

/-- The five operations by name. -/
inductive AsmOp where
  | init
  | clear
  | update
  | setDigit
  | setIcon
  deriving DecidableEq, Repr

/-- Why a line is rejected. -/
inductive AsmError where
  /-- A character of no token: outside a comment, neither of a word nor a separator (the model's choice, log 15). -/
  | badCharacter
  /-- The first word is neither a mnemonic nor one of the source's call names. -/
  | unknownOperation
  /-- The operands are too few, too many or not separated by commas. -/
  | badOperands
  /-- The position is no numeral in 0..15. -/
  | badPosition
  /-- The value is no numeral in 0..255. -/
  | badValue
  /-- The icon is neither a known name nor an index below `N_ICONS`. -/
  | badIcon
  /-- The flag is none of `1`, `on`, `true`, `0`, `off`, `false`. -/
  | badFlag
  deriving DecidableEq, Repr

/-- A character of a word: a mnemonic, a name or a numeral. That a word, and so an icon name, consists of ASCII letters,
digits and underscores only is the model's choice: R69 leaves open which characters an icon name may have
(DESIGN CHOICE, log 15). -/
def isWordChar (c : Char) : Bool := c.isAlphanum || c == '_'

/-- The tokens `ts`, with the word read so far (reversed) before them if there is one. -/
def withWord (acc : List Char) (ts : List AsmToken) : List AsmToken :=
  if acc.isEmpty then ts else .word acc.reverse :: ts

/-- The tokens of a line, up to its comment; `acc` is the word read so far, reversed. -/
def lexLine : List Char → List Char → Except AsmError (List AsmToken)
  | [], acc => .ok (withWord acc [])
  | c :: cs, acc =>
    if isWordChar c then lexLine cs (c :: acc)
    else if c == ';' then .ok (withWord acc [])
    else if c == ' ' || c == '\t' || c == '\r' then (lexLine cs []).map (withWord acc)
    else if c == ',' then (lexLine cs []).map fun ts => withWord acc (.comma :: ts)
    else if c == '(' then (lexLine cs []).map fun ts => withWord acc (.lparen :: ts)
    else if c == ')' then (lexLine cs []).map fun ts => withWord acc (.rparen :: ts)
    else .error .badCharacter

/-- The value of a digit of a numeral, hexadecimal ones included. -/
def digitOfChar (c : Char) : Option Nat :=
  if 48 ≤ c.toNat ∧ c.toNat ≤ 57 then some (c.toNat - 48)
  else if 65 ≤ c.toNat ∧ c.toNat ≤ 70 then some (c.toNat - 55)
  else if 97 ≤ c.toNat ∧ c.toNat ≤ 102 then some (c.toNat - 87)
  else none

/-- The digits of a numeral in a base, after the value read so far. -/
def digitsValue (base : Nat) : List Char → Nat → Option Nat
  | [], n => some n
  | c :: cs, n =>
    match digitOfChar c with
    | some d => if d < base then digitsValue base cs (base * n + d) else none
    | none => none

/-- An unsigned numeral, `0x` hexadecimal or decimal (30_encoding.md R69). -/
def numeral : List Char → Option Nat
  | [] => none
  | '0' :: 'x' :: c :: cs => digitsValue 16 (c :: cs) 0
  | c :: cs => digitsValue 10 (c :: cs) 0

/-- The operation a mnemonic names. -/
def opOfMnemonic (m : List Char) : Option AsmOp :=
  if m = "INIT".toList then some .init
  else if m = "CLEAR".toList then some .clear
  else if m = "UPDATE".toList then some .update
  else if m = "SET_DIGIT".toList then some .setDigit
  else if m = "SET_ICON".toList then some .setIcon
  else none

/-- The operation one of the source's calls names. -/
def opOfCall (m : List Char) : Option AsmOp :=
  if m = "initialize".toList then some .init
  else if m = "clear".toList then some .clear
  else if m = "update".toList then some .update
  else if m = "set_digit".toList then some .setDigit
  else if m = "set_icon".toList then some .setIcon
  else none

/-- The words of a comma-separated operand list. -/
def operandWords : List AsmToken → Option (List (List Char))
  | [] => some []
  | [.word a] => some [a]
  | .word a :: .comma :: .word b :: ts => (operandWords (.word b :: ts)).map (a :: ·)
  | _ => none

/-- The operands of a call: a comma-separated list between one pair of parentheses that ends the line. -/
def callWords (ts : List AsmToken) : Option (List (List Char)) :=
  match ts, ts.getLast? with
  | .lparen :: rest, some .rparen => operandWords rest.dropLast
  | _, _ => none

/-- An icon operand: its index numeral, the name `ROOM` (00_scope.md R11), or a name of the given list, tried in this
order: a word that is a numeral is never taken as a name (DESIGN CHOICE, log 15). -/
def iconWord (c : Config) (names : List (List Char × Nat)) (w : List Char) : Option Nat :=
  let i? := match numeral w with
    | some i => some i
    | none => if w = "ROOM".toList then some c.roomId else names.lookup w
  i?.filter fun i => decide (i < c.nIcons)

/-- A flag operand: `1`/`on`/`true` or `0`/`off`/`false`. -/
def flagWord (w : List Char) : Option Bool :=
  if w = "1".toList ∨ w = "on".toList ∨ w = "true".toList then some true
  else if w = "0".toList ∨ w = "off".toList ∨ w = "false".toList then some false
  else none

/-- The operation of a name and its operand words. -/
def assembleOp (c : Config) (names : List (List Char × Nat)) :
    AsmOp → List (List Char) → Except AsmError Instr
  | .init, [] => .ok .init
  | .clear, [] => .ok .clear
  | .update, [] => .ok .update
  | .setDigit, [p, v] =>
    match (numeral p).filter fun n => decide (n ≤ 15) with
    | none => .error .badPosition
    | some p =>
      match (numeral v).filter fun n => decide (n ≤ 255) with
      | none => .error .badValue
      | some v => .ok (.setDigit p v)
  | .setIcon, [i, e] =>
    match iconWord c names i with
    | none => .error .badIcon
    | some i =>
      match flagWord e with
      | none => .error .badFlag
      | some e => .ok (.setIcon i e)
  | _, _ => .error .badOperands

/-- The operation of a line's tokens, in either form; no tokens, no operation. -/
def assembleTokens (c : Config) (names : List (List Char × Nat)) :
    List AsmToken → Except AsmError (Option Instr)
  | [] => .ok none
  | .word m :: ts =>
    match opOfMnemonic m, opOfCall m with
    | some op, _ =>
      match operandWords ts with
      | some ws => (assembleOp c names op ws).map some
      | none => .error .badOperands
    | none, some op =>
      match callWords ts with
      | some ws => (assembleOp c names op ws).map some
      | none => .error .badOperands
    | none, none => .error .unknownOperation
  | _ :: _ => .error .unknownOperation

/-- The operation on a line, `none` for a line that is blank or a comment. -/
def assembleLine (c : Config) (names : List (List Char × Nat)) (line : List Char) :
    Except AsmError (Option Instr) :=
  match lexLine line [] with
  | .ok ts => assembleTokens c names ts
  | .error e => .error e

/-- The command words of a program, one canonical word an operation (30_encoding.md R65). -/
def assemble (c : Config) (names : List (List Char × Nat)) : List (List Char) → Except AsmError (List Word)
  | [] => .ok []
  | l :: ls =>
    match assembleLine c names l, assemble c names ls with
    | .ok none, .ok ws => .ok ws
    | .ok (some i), .ok ws => .ok (encode i :: ws)
    | .error e, _ => .error e
    | _, .error e => .error e

/-- The decimal digit of a number below 10. -/
def charOfDigit (n : Nat) : Char := Char.ofNat (48 + n % 10)

/-- The decimal numeral of a number below 1000, which every operand field is. -/
def showNumeral (n : Nat) : List Char :=
  if n < 10 then [charOfDigit n]
  else if n < 100 then [charOfDigit (n / 10), charOfDigit n]
  else [charOfDigit (n / 100), charOfDigit (n / 10), charOfDigit n]

/-- An operation in the mnemonic form; a reserved word has no syntax. -/
def showInstr : Instr → Option (List Char)
  | .init => some "INIT".toList
  | .clear => some "CLEAR".toList
  | .update => some "UPDATE".toList
  | .setDigit p v => some ("SET_DIGIT ".toList ++ showNumeral p.toNat ++ ", ".toList ++ showNumeral v.toNat)
  | .setIcon i e => some ("SET_ICON ".toList ++ showNumeral i ++ ", ".toList ++ (if e then ['1'] else ['0']))
  | .reservedOpc0 _ => none
  | .reservedOpc67 _ => none
  | .reservedOpc8F _ => none
  | .reservedIcon _ _ _ => none

/-- The icon names of `CFG_TEST` beside `ROOM` (95_test_vectors.md section 1). -/
def cfgTestNames : List (List Char × Nat) :=
  [("TI1".toList, 1), ("TI2".toList, 2), ("TI3".toList, 3), ("TI4".toList, 4), ("TI5".toList, 5),
   ("TI6".toList, 6), ("TI7".toList, 7)]

end Sys2Proof.Machine
end

