-- ==== Sys2Proof/Machine/Picture.lean ====
section
/-! DEFINITION. What the buffer is a picture of: which digit each position shows and which icons are shown, and what
each operation does to it. It states the algorithm's promises (41_set_digit.md R84 to R88, 42_set_icon.md R93 to R99)
without a cell or a mask; a digit's cells and an icon's bit come in only through `lit`. -/

namespace Sys2Proof.Machine

/-- A picture: the digit shown at each position, none where it is blank, and the icons shown. -/
structure Picture where
  digits : Vector (Option DigitValue) 9
  icons  : List Nat
  deriving DecidableEq, Repr

/-- Nothing shown. -/
def Picture.blank : Picture := ⟨Vector.replicate 9 none, []⟩

/-- Whether an icon lives in one of the two cells of a position. -/
def iconInDigit (c : Configuration) (i : Nat) (p : DigitPosition) : Bool :=
  match iconOperand c i with
  | none => false
  | some b => decide (b.cell = cellLo c p) || decide (b.cell = cellHi c p)

/-- What an operation does to the picture. A digit set puts out the icons that live in its cells
(41_set_digit.md R87). -/
def Picture.apply (c : Configuration) (pic : Picture) : Instr → Picture
  | .init => Picture.blank
  | .clear => Picture.blank
  | .update => pic
  | .setDigit position value =>
    match digitOperands position value with
    | none => pic
    | some (p, v) =>
      { digits := pic.digits.set p (some v), icons := pic.icons.filter fun i => !iconInDigit c i p }
  | .setIcon i enabled =>
    { pic with icons := if enabled then i :: pic.icons else pic.icons.filter fun j => decide (j ≠ i) }
  | .reservedOpc0 _ => pic
  | .reservedOpc67 _ => pic
  | .reservedOpc8F _ => pic
  | .reservedIcon _ _ _ => pic

/-- Whether bit `k` of a cell is lit in a picture: it is a segment of a digit shown there, or the bit of an icon
shown. -/
def Picture.lit (c : Configuration) (pic : Picture) (cell : CellIndex) (k : Nat) : Prop :=
  (∃ p v, pic.digits[p] = some v ∧
    ((cell = cellLo c p ∧ (segLo c v).getLsbD k = true) ∨ (cell = cellHi c p ∧ (segHi c v).getLsbD k = true))) ∨
  (∃ i b, i ∈ pic.icons ∧ iconOperand c i = some b ∧ b.cell = cell ∧ b.mask.getLsbD k = true)

/-- The buffer shows exactly this picture: a bit is set when it is lit, and only then. -/
def State.Shows (s : State) (pic : Picture) : Prop :=
  ∀ (cell : CellIndex) (k : Nat), k < 8 → ((s.cell cell).getLsbD k = true ↔ pic.lit s.cfg cell k)

end Sys2Proof.Machine
end

