-- ==== Sys2Proof/Machine/Run.lean ====
section
/-! DEFINITION. Runs: a sequence of typed operations (Level A), and the host issuing command words (Level B). -/

namespace Sys2Proof.Machine

/-- A run of operations, each complete before the next (20_memory.md R50, 70_reset_and_hazards.md R134): the
left-to-right composition of their effects. The result of a run is the final buffer and the output trace. -/
def runOps : List Instr → State → Host.Outcome State Fault Refusal
  | [], s => .next s
  | i :: is, s =>
    match exec i s with
    | .next t => runOps is t
    | .fault r => .fault r
    | .refused r => .refused r

/-- The host issues further command words, after those it has yet to present (30_encoding.md R59). -/
def State.issue (s : State) (ws : List Word) : State := { s with input := s.input ++ ws }

end Sys2Proof.Machine
end

