-- ==== Sys2Proof/Safety.lean ====
section
/-! DEFINITION. What counts as a safe run: the block always completes (60_exceptions.md R116), the invariants its steps
keep, and the duties of the host, which the block does not enforce (60_exceptions.md R112). -/

namespace Sys2Proof

/-- The operations that only stage: they touch the buffer and emit nothing (20_memory.md R52). -/
def Instr.stages : Instr → Bool
  | .init => false
  | .clear => true
  | .update => false
  | .setDigit _ _ => true
  | .setIcon _ _ => true
  | .reservedOpc0 _ => false
  | .reservedOpc67 _ => false
  | .reservedOpc8F _ => false
  | .reservedIcon _ _ _ => false

/-- The operations that hand the buffer to the transport (20_memory.md R52). -/
def Instr.commits : Instr → Bool
  | .init => true
  | .clear => false
  | .update => true
  | .setDigit _ _ => false
  | .setIcon _ _ => false
  | .reservedOpc0 _ => false
  | .reservedOpc67 _ => false
  | .reservedOpc8F _ => false
  | .reservedIcon _ _ _ => false

end Sys2Proof

namespace Sys2Proof.Machine

/-- The state has a next state: no fault, no stuck state, no refusal (60_exceptions.md R116). -/
def State.Completes (s : State) : Prop := ∃ t, step s = .next t

/-- A `T_WRITE` of the whole buffer, or no `T_WRITE`; a command only of the three tokens
(30_encoding.md R71, R72, 40_lifecycle_ops.md R82). -/
def wholeEvent (c : Configuration) : Event → Prop
  | .ctrlInit => True
  | .cmd code => code = c.data.cmdSysEn ∨ code = c.data.cmdLcdOn ∨ code = c.data.cmdBias
  | .write start len data => start = 0 ∧ len = 27 ∧ data.length = 27

/-- Every event emitted so far is one the block may emit. -/
def State.TraceWhole (s : State) : Prop := ∀ e ∈ s.trace, wholeEvent s.cfg e

/-- Every high nibble of the buffer is zero (10_state.md R16). -/
def State.HighNibblesZero (s : State) : Prop := ∀ c : CellIndex, s.cell c &&& 0xF0#8 = 0#8

/-- Every icon mask of the configuration is confined to the low nibble (the premise of 10_state.md R16). -/
def IconMasksLow (c : Configuration) : Prop := ∀ e ∈ c.data.icon, e.mask &&& 0xF0#8 = 0#8

/-- A cell that belongs to no digit and to no icon (20_memory.md R48, R49). -/
def Unowned (c : Configuration) (cell : CellIndex) : Prop :=
  (∀ p, cell ≠ cellLo c p ∧ cell ≠ cellHi c p) ∧ ∀ i b, iconOperand c i = some b → b.cell ≠ cell

/-- An operation that puts icon `i` out: the buffer zeroed, the icon cleared, or a digit set whose cells hold it
(70_reset_and_hazards.md R124, R128). -/
def putsOut (c : Configuration) (i : Nat) : Instr → Bool
  | .init => true
  | .clear => true
  | .update => false
  | .setDigit position value =>
    match digitOperands position value with
    | none => false
    | some (p, _) => iconInDigit c i p
  | .setIcon j enabled => decide (j = i) && !enabled
  | .reservedOpc0 _ => false
  | .reservedOpc67 _ => false
  | .reservedOpc8F _ => false
  | .reservedIcon _ _ _ => false

/-- Duty of the host: INIT is the first operation after reset (70_reset_and_hazards.md R119). -/
def initFirst (ops : List Instr) : Bool := ops.head? = some .init

/-- Duty of the host: everything staged is committed in the end (20_memory.md R52, 70_reset_and_hazards.md R122). -/
def endsCommitted : List Instr → Bool
  | [] => true
  | i :: is => (!i.stages || is.any Instr.commits) && endsCommitted is

/-- What the host has asked for and may have lost: the icons it has switched on (`wanted`), and those of them a digit
staged later has put out (`lost`). -/
structure IconLedger where
  wanted : List Nat
  lost   : List Nat
  deriving DecidableEq, Repr

/-- The ledger after an operation: switching an icon on or off settles it, a digit loses the wanted icons that live in
its cells, INIT and CLEAR discard everything (70_reset_and_hazards.md R124, R128). -/
def IconLedger.apply (c : Configuration) (l : IconLedger) : Instr → IconLedger
  | .init => ⟨[], []⟩
  | .clear => ⟨[], []⟩
  | .update => l
  | .setDigit position value =>
    match digitOperands position value with
    | none => l
    | some (p, _) => { l with lost := l.lost ++ l.wanted.filter fun i => iconInDigit c i p }
  | .setIcon i enabled =>
    { wanted := if enabled then i :: l.wanted else l.wanted.filter fun j => decide (j ≠ i)
      lost := l.lost.filter fun j => decide (j ≠ i) }
  | .reservedOpc0 _ => l
  | .reservedOpc67 _ => l
  | .reservedOpc8F _ => l
  | .reservedIcon _ _ _ => l

/-- The ledger after a sequence of operations. -/
def IconLedger.applyAll (c : Configuration) (l : IconLedger) (ops : List Instr) : IconLedger :=
  ops.foldl (IconLedger.apply c) l

/-- Duty of the host: at every UPDATE nothing wanted is lost, that is, an icon that shares a digit's cell is staged
after that digit and before the commit (70_reset_and_hazards.md R124, 60_exceptions.md R112). -/
def iconsAfterDigits (c : Configuration) : IconLedger → List Instr → Bool
  | _, [] => true
  | l, i :: is => (decide (i ≠ .update) || l.lost.isEmpty) && iconsAfterDigits c (l.apply c i) is

/-- The duties of the host over a run after reset, taken together (60_exceptions.md R112). -/
def hostDuties (c : Configuration) (ops : List Instr) : Bool :=
  initFirst ops && endsCommitted ops && iconsAfterDigits c ⟨[], []⟩ ops

end Sys2Proof.Machine
end

