-- ==== Sys2Proof/Certificates/Slice0/Obligations.lean ====
section
/-! DEFINITION. The statements for the provers, from the numbered rules of spec/. Every statement quantifies over every
state, hence over every well-formed configuration and every content of the buffer; none rests on `State.reset`'s own
configuration (log 4). -/

open Sys2Proof Sys2Proof.Machine

/-! ### Reset and tables -/

/-- 10_state.md R36, 30_encoding.md R73: reset leaves the tables as configured and the trace empty, the display image
undefined; the buffer holds whatever it holds. That `State.reset` is one of these states, with nothing issued, is the
model's choice (log 2, log 4, log 6). -/
def Obligations.ResetLeavesTablesAndEmptyTrace : Prop :=
  (∀ (cfg : Configuration) (contents : Buffer),
    (State.resetOf cfg contents).cfg = cfg ∧
    (∀ c : CellIndex, (State.resetOf cfg contents).cell c = contents[c]) ∧
    (State.resetOf cfg contents).trace = [] ∧
    displayImage (State.resetOf cfg contents).trace = none) ∧
  ∃ contents, State.reset = State.resetOf Configuration.test contents

/-- 10_state.md R22, 20_memory.md R39: which cells a position has and which byte of a pattern each receives. -/
def Obligations.DigitCellsAndBytes : Prop :=
  ∀ (c : Configuration) (p : DigitPosition) (v : DigitValue),
    (cellLo c p).val = c.data.posBase[p] ∧ (cellHi c p).val = c.data.posBase[p] + 1 ∧
    (segLo c v).toNat = (c.data.seg[v]).toNat % 256 ∧ (segHi c v).toNat = (c.data.seg[v]).toNat / 256

/-- 10_state.md R23, 42_set_icon.md R94: an index names an icon exactly when it is below `N_ICONS`, and then the operand
is that entry of the table. -/
def Obligations.IconOperandIsTableEntry : Prop :=
  ∀ (c : Configuration) (i : Nat),
    ((∃ b, iconOperand c i = some b) ↔ i < c.data.nIcons) ∧
    ((iconOperand c i).map fun b => (b.cell.val, b.mask)) = (c.data.icon[i]?).map fun e => (e.cell, e.mask)

/-- 10_state.md R26, R29, R31, 70_reset_and_hazards.md R129: no cell belongs to two digits, no bit to two icons, and no
icon's bit is a segment bit. -/
def Obligations.TableAliasingExcluded : Prop :=
  ∀ c : Configuration,
    (∀ p q : DigitPosition, p ≠ q →
      cellLo c p ≠ cellLo c q ∧ cellLo c p ≠ cellHi c q ∧ cellHi c p ≠ cellHi c q) ∧
    (∀ (i j : Nat) (b d : IconBit), iconOperand c i = some b → iconOperand c j = some d → i ≠ j →
      b.cell = d.cell → b.mask &&& d.mask = 0#8) ∧
    (∀ (i : Nat) (b : IconBit) (p : DigitPosition) (v : DigitValue), iconOperand c i = some b →
      (b.cell = cellLo c p → b.mask &&& segLo c v = 0#8) ∧ (b.cell = cellHi c p → b.mask &&& segHi c v = 0#8))

/-! ### INIT, CLEAR, UPDATE -/

/-- 40_lifecycle_ops.md R75, R76: INIT completes from every state, zeroes the whole buffer, emits exactly its five
events in order, the flush of the zeroed buffer before the bias command and after the enabling ones, and changes
nothing else. -/
def Obligations.InitZeroesBufferAndEmitsFiveEvents : Prop :=
  ∀ s : State, exec .init s = .next { s with
    buf := Vector.replicate 27 0#8
    trace := s.trace ++ [.ctrlInit, .cmd s.cfg.data.cmdSysEn, .cmd s.cfg.data.cmdLcdOn,
      .write 0 27 (List.replicate 27 0#8), .cmd s.cfg.data.cmdBias] }

/-- 40_lifecycle_ops.md R77: INIT is the bring-up events, CLEAR, UPDATE and the bias command, in state and in trace; and
a run without INIT emits nothing but whole-buffer writes and equals no INIT. -/
def Obligations.InitIsBringUpClearUpdateBias : Prop :=
  (∀ s t : State,
    runOps [.clear, .update]
      (((s.emit .ctrlInit).emit (.cmd s.cfg.data.cmdSysEn)).emit (.cmd s.cfg.data.cmdLcdOn)) = .next t →
    exec .init s = .next (t.emit (.cmd s.cfg.data.cmdBias))) ∧
  (∀ (ops : List Instr) (s t : State), Instr.init ∉ ops → runOps ops s = .next t →
    (∃ writes, t.trace = s.trace ++ writes ∧ ∀ e ∈ writes, ∃ data, e = .write 0 27 data) ∧
    exec .init s ≠ .next t)

/-- 40_lifecycle_ops.md R78: CLEAR completes from every state, zeroes every container, all 8 bits of it, emits nothing
and changes nothing else. -/
def Obligations.ClearZeroesBufferSilently : Prop :=
  ∀ s : State, ∃ t, exec .clear s = .next t ∧ (∀ c : CellIndex, t.cell c = 0#8) ∧
    t.trace = s.trace ∧ t.cfg = s.cfg ∧ t.input = s.input

/-- 40_lifecycle_ops.md R80: CLEAR after any staging operations is the all-zero buffer and nothing else. -/
def Obligations.ClearAbsorbsStaging : Prop :=
  ∀ (ops : List Instr) (s t : State), (∀ i ∈ ops, i.stages = true) → runOps ops s = .next t →
    exec .clear t = .next { s with buf := Vector.replicate 27 0#8 }

/-- 40_lifecycle_ops.md R81, 20_memory.md R41: UPDATE completes from every state, emits exactly one `T_WRITE` of the 27
containers in ascending order, leaves the buffer as it was, and the display image becomes equal to it. -/
def Obligations.UpdateSendsWholeBuffer : Prop :=
  ∀ s : State, ∃ t data, exec .update s = .next t ∧
    t.trace = s.trace ++ [.write 0 27 data] ∧ data.length = 27 ∧
    (∀ k : CellIndex, data[k.val]? = some (s.cell k)) ∧
    (∀ k : CellIndex, t.cell k = s.cell k) ∧ t.cfg = s.cfg ∧ t.input = s.input ∧
    displayImage t.trace = some data

/-! ### SET_DIGIT -/

/-- 41_set_digit.md R84, R86: with operands in range SET_DIGIT completes, and for all its XOR step it is the direct
overwrite of the two cells, whole, with the lower and the upper byte of the pattern; nothing else changes. -/
def Obligations.SetDigitIsDirectOverwrite : Prop :=
  ∀ (s : State) (p : DigitPosition) (v : DigitValue),
    exec (.setDigit (p.val : Int) (v.val : Int)) s =
      .next { s with buf := (s.buf.set (cellLo s.cfg p) (segLo s.cfg v)).set (cellHi s.cfg p) (segHi s.cfg v) }

/-- 41_set_digit.md R85: with an operand out of range, negative ones included, SET_DIGIT is a silent no-op. -/
def Obligations.SetDigitOutOfRangeIsSilent : Prop :=
  ∀ (s : State) (position value : Int), position < 0 ∨ position ≥ 9 ∨ value < 0 ∨ value > 15 →
    exec (.setDigit position value) s = .next s

/-- 41_set_digit.md R88: (a) the digit reads back as its table entry and every other cell is unchanged; (b) so is every
other digit; (c) an icon outside the two cells is unchanged; (d) an icon in one of them is off; (e) operands out of
range leave all 27 cells unchanged. -/
def Obligations.SetDigitReadsBackAndKeepsTheRest : Prop :=
  (∀ (s : State) (p : DigitPosition) (v : DigitValue), ∃ t,
    exec (.setDigit (p.val : Int) (v.val : Int)) s = .next t ∧
    t.readDigit p = s.cfg.data.seg[v] ∧
    (∀ c : CellIndex, c ≠ cellLo s.cfg p → c ≠ cellHi s.cfg p → t.cell c = s.cell c) ∧
    (∀ q : DigitPosition, q ≠ p → t.readDigit q = s.readDigit q) ∧
    (∀ (i : Nat) (b : IconBit), iconOperand s.cfg i = some b →
      if b.cell = cellLo s.cfg p ∨ b.cell = cellHi s.cfg p then t.iconOn b = false
      else t.iconOn b = s.iconOn b)) ∧
  (∀ (s : State) (position value : Int), position < 0 ∨ position > 8 ∨ value < 0 ∨ value > 15 →
    ∃ t, exec (.setDigit position value) s = .next t ∧ ∀ c : CellIndex, t.cell c = s.cell c)

/-- 10_state.md R20, R24: the digit 9 writes `0x0F` to the first cell of its position and `0x06` to the second, whatever
the configuration; the worked example of 41_set_digit.md R84 for every position. -/
def Obligations.DigitNineWritesPinnedPattern : Prop :=
  ∀ (s : State) (p : DigitPosition), ∃ t, exec (.setDigit (p.val : Int) 9) s = .next t ∧
    t.cell (cellLo s.cfg p) = 0x0F#8 ∧ t.cell (cellHi s.cfg p) = 0x06#8

/-- 41_set_digit.md R91: the last write to a position wins; different positions commute; SET_DIGIT commutes with
SET_ICON outside its cells; inside them, icon then digit leaves the icon off and digit then icon leaves it on. -/
def Obligations.DigitsLastWriteWinsAndReorder : Prop :=
  (∀ (s : State) (p : DigitPosition) (v w : DigitValue),
    runOps [.setDigit p.val v.val, .setDigit p.val w.val] s = exec (.setDigit p.val w.val) s) ∧
  (∀ (s : State) (p q : DigitPosition) (v w : DigitValue), p ≠ q →
    runOps [.setDigit p.val v.val, .setDigit q.val w.val] s =
      runOps [.setDigit q.val w.val, .setDigit p.val v.val] s) ∧
  (∀ (s : State) (p : DigitPosition) (v : DigitValue) (i : Nat) (b : IconBit) (enabled : Bool),
    iconOperand s.cfg i = some b → b.cell ≠ cellLo s.cfg p → b.cell ≠ cellHi s.cfg p →
    runOps [.setDigit p.val v.val, .setIcon i enabled] s =
      runOps [.setIcon i enabled, .setDigit p.val v.val] s) ∧
  (∀ (s : State) (p : DigitPosition) (v : DigitValue) (i : Nat) (b : IconBit),
    iconOperand s.cfg i = some b → (b.cell = cellLo s.cfg p ∨ b.cell = cellHi s.cfg p) →
    ∃ t u, runOps [.setIcon i true, .setDigit p.val v.val] s = .next t ∧ t.iconOn b = false ∧
      runOps [.setDigit p.val v.val, .setIcon i true] s = .next u ∧ u.iconOn b = true)

/-- 41_set_digit.md R92, for every position and value: CLEAR then SET_DIGIT shows exactly the pattern, every other cell
zero. -/
def Obligations.ClearThenDigitShowsOnlyThatDigit : Prop :=
  ∀ (s : State) (p : DigitPosition) (v : DigitValue), ∃ t,
    runOps [.clear, .setDigit p.val v.val] s = .next t ∧
    t.cell (cellLo s.cfg p) = segLo s.cfg v ∧ t.cell (cellHi s.cfg p) = segHi s.cfg v ∧
    t.readDigit p = s.cfg.data.seg[v] ∧
    ∀ c : CellIndex, c ≠ cellLo s.cfg p → c ≠ cellHi s.cfg p → t.cell c = 0#8

/-! ### SET_ICON -/

/-- 42_set_icon.md R93: for an icon of the enumeration SET_ICON completes, ORs the mask into its container or ANDs the
8-bit complement, and changes nothing else. -/
def Obligations.SetIconOrsOrMasksItsContainer : Prop :=
  ∀ (s : State) (i : Nat) (enabled : Bool), i < s.cfg.data.nIcons → ∃ b, iconOperand s.cfg i = some b ∧
    exec (.setIcon i enabled) s = .next { s with
      buf := s.buf.set b.cell (if enabled then s.cell b.cell ||| b.mask else s.cell b.cell &&& ~~~b.mask) }

/-- 42_set_icon.md R95: exactly the icon's one bit is set or cleared, every other bit of its container and every other
container is unchanged, nothing is emitted, and nothing at all changes when the bit already has the value. -/
def Obligations.SetIconChangesExactlyItsBit : Prop :=
  ∀ (s : State) (i : Nat) (b : IconBit) (enabled : Bool), iconOperand s.cfg i = some b →
    (∃ k < 8, b.mask = 1#8 <<< k) ∧
    ∃ t, exec (.setIcon i enabled) s = .next t ∧
      t.cell b.cell &&& b.mask = (if enabled then b.mask else 0#8) ∧
      t.cell b.cell &&& not8 b.mask = s.cell b.cell &&& not8 b.mask ∧
      (∀ c : CellIndex, c ≠ b.cell → t.cell c = s.cell c) ∧
      t.trace = s.trace ∧ t.cfg = s.cfg ∧ t.input = s.input ∧
      (s.cell b.cell &&& b.mask = (if enabled then b.mask else 0#8) → t = s)

/-- 42_set_icon.md R96: the last call for an icon wins; twice the same is once. -/
def Obligations.SetIconLastCallWins : Prop :=
  ∀ (s : State) (i : Nat) (e f : Bool), runOps [.setIcon i e, .setIcon i f] s = exec (.setIcon i f) s

/-- 42_set_icon.md R99: SET_ICONs of different icons commute and leave each other's bits, and every digit's segment
bits, as they were. -/
def Obligations.IconsDoNotDisturbOneAnother : Prop :=
  ∀ (s : State) (i j : Nat) (b d : IconBit) (e f : Bool), i ≠ j →
    iconOperand s.cfg i = some b → iconOperand s.cfg j = some d →
    runOps [.setIcon i e, .setIcon j f] s = runOps [.setIcon j f, .setIcon i e] s ∧
    ∃ t, exec (.setIcon i e) s = .next t ∧ t.iconOn d = s.iconOn d ∧
      ∀ (p : DigitPosition) (v : DigitValue),
        t.readDigit p &&& s.cfg.data.seg[v] = s.readDigit p &&& s.cfg.data.seg[v]

/-- 93_implementation_defined.md U1, 42_set_icon.md R94: an index that names no icon is refused by name, without a
table lookup. The refusal is the model's (log 9); no command word leads to it. -/
def Obligations.SetIconOutsideEnumerationIsRefused : Prop :=
  ∀ (s : State) (i : Nat) (enabled : Bool), s.cfg.data.nIcons ≤ i →
    exec (.setIcon i enabled) s = .refused (.iconNotInEnumeration i)

/-! ### Reserved words -/

/-- 30_encoding.md R66, R67, 60_exceptions.md R102: each of the four reserved rows completes with no effect at all. -/
def Obligations.ReservedWordsAreNoOps : Prop :=
  ∀ (s : State), (∀ r, exec (.reservedOpc0 r) s = .next s) ∧ (∀ r, exec (.reservedOpc67 r) s = .next s) ∧
    (∀ r, exec (.reservedOpc8F r) s = .next s) ∧ (∀ x e i, exec (.reservedIcon x e i) s = .next s)

/-! ### All operations -/

/-- 20_memory.md R55, R51: no operation writes the tables, takes a word of the host's, or alters an event already
emitted. -/
def Obligations.OperationsKeepTablesAndPastEvents : Prop :=
  ∀ (i : Instr) (s t : State), exec i s = .next t →
    t.cfg = s.cfg ∧ t.input = s.input ∧ ∃ events, t.trace = s.trace ++ events

/-- 20_memory.md R52: only INIT and UPDATE emit, and after either the display image is the buffer; every other operation
emits nothing. -/
def Obligations.OnlyCommitsReachTheTransport : Prop :=
  ∀ (i : Instr) (s t : State), exec i s = .next t →
    (i.commits = true ↔ (i = .init ∨ i = .update)) ∧
    (i.commits = true → displayImage t.trace = some t.buf.toList ∧ ∃ events, t.trace = s.trace ++ events ∧
      .write 0 27 t.buf.toList ∈ events) ∧
    (i.commits = false → t.trace = s.trace)

/-- 20_memory.md R54, 40_lifecycle_ops.md R79, 70_reset_and_hazards.md R122: without a commit, no run of operations changes
the display image. -/
def Obligations.StagedChangesAreInvisible : Prop :=
  ∀ (ops : List Instr) (s t : State), (∀ i ∈ ops, i.commits = false) → runOps ops s = .next t →
    displayImage t.trace = displayImage s.trace

/-- 20_memory.md R46: CLEAR, SET_DIGIT and SET_ICON are idempotent on the state, and UPDATE changes no container and emits
one more write each time. -/
def Obligations.StagingIsIdempotent : Prop :=
  (∀ (i : Instr) (s t : State), i.stages = true → exec i s = .next t → exec i t = .next t) ∧
  (∀ s t u : State, exec .update s = .next t → exec .update t = .next u →
    u.buf = s.buf ∧ u.trace = s.trace ++ [.write 0 27 s.buf.toList, .write 0 27 s.buf.toList])

/-- 20_memory.md R49: a cell that belongs to no digit and no icon is written by no operation but INIT and CLEAR. -/
def Obligations.UnownedCellsChangeOnlyByZeroing : Prop :=
  ∀ (i : Instr) (s t : State) (c : CellIndex), Unowned s.cfg c → exec i s = .next t →
    if i = .init ∨ i = .clear then t.cell c = 0#8 else t.cell c = s.cell c

/-- 30_encoding.md R73, 10_state.md R18: no operation reads the trace or the host's words: from states that agree on the
tables and the buffer, an operation leaves the same buffer and emits the same events. -/
def Obligations.TraceAndInputAreNotRead : Prop :=
  ∀ (i : Instr) (s₁ s₂ t₁ : State), s₁.cfg = s₂.cfg → s₁.buf = s₂.buf → exec i s₁ = .next t₁ →
    ∃ t₂ events, exec i s₂ = .next t₂ ∧ t₂.cfg = t₁.cfg ∧ t₂.buf = t₁.buf ∧
      t₁.trace = s₁.trace ++ events ∧ t₂.trace = s₂.trace ++ events

/-- 60_exceptions.md R108: an operation that a run ignores, a SET_DIGIT out of range or a reserved word, has no influence
on the rest of the run, wherever it stands; 20_memory.md R50: the effect of a run is the composition, left to right, of
the effects of its operations. -/
def Obligations.IgnoredOperationsHaveNoInfluence : Prop :=
  (∀ (before after : List Instr) (i : Instr) (s : State),
    ((∃ p v, i = .setDigit p v ∧ (p < 0 ∨ p > 8 ∨ v < 0 ∨ v > 15)) ∨ (∃ r, i = .reservedOpc0 r) ∨
      (∃ r, i = .reservedOpc67 r) ∨ (∃ r, i = .reservedOpc8F r) ∨ (∃ x e n, i = .reservedIcon x e n)) →
    runOps (before ++ i :: after) s = runOps (before ++ after) s) ∧
  (∀ (i : Instr) (s : State), runOps [i] s = exec i s) ∧
  (∀ (before after : List Instr) (s t : State), runOps before s = .next t →
    runOps (before ++ after) s = runOps after t)

/-- 70_reset_and_hazards.md R119, R128: a run that begins with INIT does not depend on the contents of the buffer at
reset. -/
def Obligations.InitErasesPowerOnContents : Prop :=
  ∀ (cfg : Configuration) (contents₁ contents₂ : Buffer) (ops : List Instr),
    runOps (.init :: ops) (State.resetOf cfg contents₁) = runOps (.init :: ops) (State.resetOf cfg contents₂)

/-! ### Command words -/

/-- The canonical word of every well-formed operation decodes to that operation, under every `N_ICONS` of
00_scope.md R11 (30_encoding.md R63, R65). -/
def Obligations.DecodeOfEncodeIsIdentity : Prop :=
  ∀ nIcons ≤ 256, ∀ i : Instr, i.wf nIcons = true → decode nIcons (encode i) = i

/-- Encoding what a word of INIT, CLEAR, UPDATE, SET_DIGIT or SET_ICON decodes to gives the word back with its ignored bits
zero, the canonical word (30_encoding.md R65). That a reserved word comes back whole is the model's choice (DESIGN CHOICE,
log 11: its reserved operations keep the word's bits, where the spec has one RESERVED). -/
def Obligations.EncodeOfDecodeIsCanonical : Prop :=
  ∀ (nIcons : Nat) (w : Word), encode (decode nIcons w) =
    if w &&& 0xF000#16 = 0x1000#16 ∨ w &&& 0xF000#16 = 0x2000#16 ∨ w &&& 0xF000#16 = 0x3000#16 then
      w &&& 0xF000#16
    else if w &&& 0xF000#16 = 0x5000#16 ∧ (w &&& 0x00FF#16).toNat < nIcons then w &&& 0xF1FF#16
    else w

/-- 30_encoding.md R63: what every word decodes to, by its fields read as unsigned numbers; everything else is one of the
reserved operations. -/
def Obligations.DecodeFollowsTheFields : Prop :=
  ∀ (nIcons : Nat) (w : Word),
    (w.toNat / 4096 = 1 → decode nIcons w = .init) ∧
    (w.toNat / 4096 = 2 → decode nIcons w = .clear) ∧
    (w.toNat / 4096 = 3 → decode nIcons w = .update) ∧
    (w.toNat / 4096 = 4 →
      decode nIcons w = .setDigit ((w.toNat / 256 % 16 : Nat) : Int) ((w.toNat % 256 : Nat) : Int)) ∧
    (w.toNat / 4096 = 5 → w.toNat % 256 < nIcons →
      decode nIcons w = .setIcon (w.toNat % 256) (decide (w.toNat / 256 % 2 = 1))) ∧
    (w.toNat / 4096 = 0 ∨ 6 ≤ w.toNat / 4096 ∨ (w.toNat / 4096 = 5 ∧ nIcons ≤ w.toNat % 256) →
      ∀ s : State, exec (decode nIcons w) s = .next s)

/-- 30_encoding.md R65: the ignored bits of formats Z and I do not take part in decoding, and the canonical words have
them zero. -/
def Obligations.IgnoredBitsDoNotSelect : Prop :=
  (encode .init = 0x1000#16 ∧ encode .clear = 0x2000#16 ∧ encode .update = 0x3000#16 ∧
    ∀ (i : Byte) (e : Bool), encode (.setIcon i.toNat e) &&& 0x0E00#16 = 0#16) ∧
  ∀ (nIcons : Nat) (w z : Word),
    ((w.toNat / 4096 = z.toNat / 4096 ∧ w.toNat / 4096 ∈ [1, 2, 3]) ∨
      (w.toNat / 4096 = 5 ∧ z.toNat / 4096 = 5 ∧ w.toNat % 512 = z.toNat % 512)) →
    (decode nIcons w).mnemonic = (decode nIcons z).mnemonic ∧
    (w.toNat % 256 < nIcons ∨ w.toNat / 4096 ≠ 5 → decode nIcons w = decode nIcons z)

/-- 30_encoding.md R64: of the opcode map's rows every word selects exactly one, and the decoder gives that row's
operation. -/
def Obligations.EveryWordSelectsOneRow : Prop :=
  ∀ (nIcons : Nat) (w : Word),
    (opcodeRows.filter fun r => r.selects nIcons w).map (·.mnemonic) = [(decode nIcons w).mnemonic]

/-- Every word decodes to a well-formed operation: an icon of the enumeration, operands within their fields
(30_encoding.md R61, R62, R67). -/
def Obligations.DecodedOperationIsWellFormed : Prop :=
  ∀ (nIcons : Nat) (w : Word), (decode nIcons w).wf nIcons = true

/-- Words written out from the encoding of 30_encoding.md and 95_test_vectors.md section 3.1, `N_ICONS` = 8. -/
def Obligations.SampleWordsDecode : Prop :=
  decode 8 0b0001000000000000#16 = .init ∧ decode 8 0b0001101010111100#16 = .init ∧
  decode 8 0b0010111111111111#16 = .clear ∧ decode 8 0b0011000000000000#16 = .update ∧
  decode 8 0b0100000000001001#16 = .setDigit 0 9 ∧ decode 8 0b0100100000010000#16 = .setDigit 8 16 ∧
  decode 8 0b0100111111111111#16 = .setDigit 15 255 ∧ decode 8 0b0101000100000000#16 = .setIcon 0 true ∧
  decode 8 0b0101111000000111#16 = .setIcon 7 false ∧
  decode 8 0b0101000100001000#16 = .reservedIcon 0#3 true 8#8 ∧
  decode 8 0b0000000000000000#16 = .reservedOpc0 0#12 ∧
  decode 8 0b0111000100100011#16 = .reservedOpc67 0b1000100100011#13 ∧
  decode 8 0b1111000100100011#16 = .reservedOpc8F 0b111000100100011#15

/-- 30_encoding.md R69: a line written in the mnemonic form assembles to the operation it was written for, under every
configuration and every list of icon names. The decimal numerals of `showInstr` are the model's (log 15). -/
def Obligations.AssemblerReadsWhatItShows : Prop :=
  ∀ (c : Configuration) (names : List (List Char × Nat)) (i : Instr) (line : List Char),
    i.wf c.data.nIcons = true → showInstr i = some line → assembleLine c.data names line = .ok (some i)

/-! ### Steps -/

/-- 30_encoding.md R59: a step takes the next word and performs the operation it decodes to; 60_exceptions.md R115: with
none presented the block idles (the idle step is the model's reading, log 7). -/
def Obligations.StepRunsTheDecodedWord : Prop :=
  (∀ (s : State) (w : Word) (rest : List Word), s.input = w :: rest →
    step s = exec (decode s.cfg.data.nIcons w) { s with input := rest }) ∧
  (∀ s : State, s.input = [] → step s = .next s)

/-- The canonical word of a well-formed operation, presented next, runs that operation. -/
def Obligations.StepRunsTheEncodedOperation : Prop :=
  ∀ (s : State) (i : Instr) (rest : List Word), i.wf s.cfg.data.nIcons = true → s.input = encode i :: rest →
    step s = exec i { s with input := rest }

/-- 60_exceptions.md R116, R100: from every state, for every command word and for every well-typed operation (an icon
operand is one of the enumeration, R94), there is a next state and a finite list of emitted events: no fault, no stuck
state, no refusal inside the step. -/
def Obligations.EveryWordAndOperationCompletes : Prop :=
  (∀ s : State, s.Completes) ∧
  (∀ (s : State) (i : Instr), (∀ n e, i = .setIcon n e → n < s.cfg.data.nIcons) →
    ∃ t events, exec i s = .next t ∧ t.trace = s.trace ++ events)

/-- Level B adds nothing to Level A (92_eei_decisions.md D1): stepping through the words the host has presented is the
run of the operations they decode to (20_memory.md R50). -/
def Obligations.WordRunIsOperationRun : Prop :=
  ∀ s : State, Host.Core.run Sys2Proof.core s.input.length s =
    runOps (s.input.map (decode s.cfg.data.nIcons)) { s with input := [] }

/-! ### Invariants -/

/-- 40_lifecycle_ops.md R82, 30_encoding.md R71: no operation and no step ever emits a partial flush or a command that is
not one of the three. -/
def Obligations.StepKeepsTraceWhole : Prop :=
  (∀ (i : Instr) (s t : State), s.TraceWhole → exec i s = .next t → t.TraceWhole) ∧
  (∀ s t : State, s.TraceWhole → step s = .next t → t.TraceWhole)

/-- The trace is whole after every reset. -/
def Obligations.ResetTraceIsWhole : Prop :=
  State.reset.TraceWhole ∧ ∀ (cfg : Configuration) (contents : Buffer), (State.resetOf cfg contents).TraceWhole

/-- 10_state.md R16: with every icon mask in the low nibble, after a CLEAR every high nibble is zero, and every step keeps
it so. -/
def Obligations.HighNibblesStayZero : Prop :=
  (∀ s t : State, exec .clear s = .next t → t.HighNibblesZero) ∧
  (∀ s t : State, IconMasksLow s.cfg → s.HighNibblesZero → step s = .next t → t.HighNibblesZero)

/-- The buffer is the picture of what was staged (41_set_digit.md R87, R88, 42_set_icon.md R95, R99, 70_reset_and_hazards.md
R124, R125): if the buffer shows a picture, then after an operation it shows the picture with that operation done to it:
a bit is lit by a digit shown or an icon shown, and by nothing else. -/
def Obligations.OperationsRefineThePicture : Prop :=
  ∀ (i : Instr) (s t : State) (pic : Picture), s.Shows pic → exec i s = .next t → t.Shows (pic.apply s.cfg i)

/-- INIT and CLEAR show the blank picture, and from it every run of operations shows the picture of its operations. -/
def Obligations.RunsShowTheirPicture : Prop :=
  ∀ (first : Instr) (ops : List Instr) (s t : State), first = .init ∨ first = .clear →
    runOps (first :: ops) s = .next t → t.Shows (ops.foldl (Picture.apply s.cfg) Picture.blank)

/-- 70_reset_and_hazards.md R125, R124: an icon that is on stays on through every operation that does not put it out. -/
def Obligations.IconStaysOnUntilPutOut : Prop :=
  ∀ (ops : List Instr) (s t : State) (i : Nat) (b : IconBit), iconOperand s.cfg i = some b → s.iconOn b = true →
    (∀ op ∈ ops, putsOut s.cfg i op = false) → runOps ops s = .next t → t.iconOn b = true

/-- 70_reset_and_hazards.md R124: a host that stages icons after the digits whose cells hold them finds, at every UPDATE,
every icon it has switched on and not off again lit in the buffer. The hypothesis `iconsAfterDigits`, and which icons count
as wanted, are the model's reading of the host's duty (DEDUCED, log 17). -/
def Obligations.DigitFirstIconSecondKeepsIcons : Prop :=
  ∀ (ops : List Instr) (s t : State), iconsAfterDigits s.cfg ⟨[], []⟩ (ops ++ [.update]) = true →
    runOps ops s = .next t →
    ∀ i ∈ (IconLedger.applyAll s.cfg ⟨[], []⟩ ops).wanted, ∀ b, iconOperand s.cfg i = some b → t.iconOn b = true
end

