-- ==== Sys2Proof/Laws/Assembly.lean ====
section
/-! SUPPORT. How the assembler reads a line piece by piece, and that it reads the numerals it shows. -/

namespace Sys2Proof.Machine

/-- A word is read to its end. -/
theorem lexLine_word (w rest acc : List Char) (h : w.all isWordChar = true) :
    lexLine (w ++ rest) acc = lexLine rest (w.reverse ++ acc) := by
  induction w generalizing acc with
  | nil => rfl
  | cons c cs ih =>
    simp only [List.all_cons, Bool.and_eq_true] at h
    simp [lexLine, h.1, ih _ h.2]

/-- A space ends a word. -/
theorem lexLine_space (cs acc : List Char) : lexLine (' ' :: cs) acc = (lexLine cs []).map (withWord acc) := rfl

/-- A comma ends a word and is a token. -/
theorem lexLine_comma (cs acc : List Char) :
    lexLine (',' :: cs) acc = (lexLine cs []).map fun ts => withWord acc (.comma :: ts) := rfl

set_option maxRecDepth 20000 in
/-- Every numeral an operand field can hold is one word and is read back. -/
theorem numeral_showNumeral :
    ∀ n < 256, (showNumeral n).all isWordChar = true ∧ showNumeral n ≠ [] ∧ numeral (showNumeral n) = some n := by
  decide

end Sys2Proof.Machine
end

