-- ==== Sys2Proof/Laws/Decode.lean ====
section
/-! SUPPORT. The decoder by opcode, one lemma per group of words; the fields of an encoded operation. -/

namespace Sys2Proof

variable {n : Nat} {w : Word}

theorem decode_opc0 (h : fieldOpc w = 0#4) : decode n w = .reservedOpc0 (w.extractLsb' 0 12) := by
  simp [decode, h]

theorem decode_opc1 (h : fieldOpc w = 1#4) : decode n w = .init := by
  simp [decode, h]

theorem decode_opc2 (h : fieldOpc w = 2#4) : decode n w = .clear := by
  simp [decode, h]

theorem decode_opc3 (h : fieldOpc w = 3#4) : decode n w = .update := by
  simp [decode, h]

theorem decode_opc4 (h : fieldOpc w = 4#4) :
    decode n w = .setDigit (fieldPos w).toNat (fieldVal w).toNat := by
  simp [decode, h]

theorem decode_opc5 (h : fieldOpc w = 5#4) :
    decode n w = if (fieldIcon w).toNat < n then .setIcon (fieldIcon w).toNat (fieldEn w)
      else .reservedIcon (fieldIgnored w) (fieldEn w) (fieldIcon w) := by
  simp [decode, h]

theorem decode_opc67 (h : fieldOpc w = 6#4 ∨ fieldOpc w = 7#4) :
    decode n w = .reservedOpc67 (w.extractLsb' 0 13) := by
  rcases h with h | h <;> simp [decode, h]

theorem decode_opc8F (h : 8#4 ≤ fieldOpc w) : decode n w = .reservedOpc8F (w.extractLsb' 0 15) := by
  have h8 : 8 ≤ (fieldOpc w).toNat := by simpa [BitVec.le_def] using h
  unfold decode
  split <;> first | omega | rfl

/-- The operands of a well-formed SET_DIGIT are two field values. -/
theorem wf_setDigit_fields {n : Nat} {p v : Int} (h : (Instr.setDigit p v).wf n = true) :
    ∃ (x : BitVec 4) (y : BitVec 8), p = x.toNat ∧ v = y.toNat := by
  simp only [Instr.wf, Bool.and_eq_true, decide_eq_true_eq] at h
  refine ⟨BitVec.ofNat 4 p.toNat, BitVec.ofNat 8 v.toNat, ?_, ?_⟩ <;> simp only [BitVec.toNat_ofNat] <;> omega

/-- The operand of a well-formed SET_ICON is a field value. -/
theorem wf_setIcon_field {n i : Nat} {e : Bool} (hn : n ≤ 256) (h : (Instr.setIcon i e).wf n = true) :
    ∃ y : BitVec 8, i = y.toNat ∧ y.toNat < n := by
  simp only [Instr.wf, decide_eq_true_eq] at h
  refine ⟨BitVec.ofNat 8 i, ?_, ?_⟩ <;> simp only [BitVec.toNat_ofNat] <;> omega

/-- The fields of the canonical word of SET_DIGIT (30_encoding.md R61). -/
theorem encode_setDigit_fields (x : BitVec 4) (y : BitVec 8) :
    let w := encode (.setDigit x.toNat y.toNat)
    fieldOpc w = 4#4 ∧ fieldPos w = x ∧ fieldVal w = y := by
  refine ⟨?_, ?_, ?_⟩ <;> apply BitVec.eq_of_getLsbD_eq <;> intro k hk <;> interval_cases k <;>
    simp [encode, fieldOpc, fieldPos, fieldVal]

/-- The fields of the canonical word of SET_ICON (30_encoding.md R62). -/
theorem encode_setIcon_fields (y : BitVec 8) (e : Bool) :
    let w := encode (.setIcon y.toNat e)
    fieldOpc w = 5#4 ∧ fieldIcon w = y ∧ fieldEn w = e := by
  refine ⟨?_, ?_, ?_⟩
  · apply BitVec.eq_of_getLsbD_eq; intro k hk; interval_cases k <;> cases e <;> simp [encode, fieldOpc]
  · apply BitVec.eq_of_getLsbD_eq; intro k hk; interval_cases k <;> cases e <;> simp [encode, fieldIcon]
  · cases e <;> simp [encode, fieldEn]

/-- The fields of the word of RESERVED.ICON (30_encoding.md R62, R67). -/
theorem encode_reservedIcon_fields (x : BitVec 3) (e : Bool) (y : BitVec 8) :
    let w := encode (.reservedIcon x e y)
    fieldOpc w = 5#4 ∧ fieldIgnored w = x ∧ fieldEn w = e ∧ fieldIcon w = y := by
  refine ⟨?_, ?_, ?_, ?_⟩
  · apply BitVec.eq_of_getLsbD_eq; intro k hk; interval_cases k <;> cases e <;> simp [encode, fieldOpc]
  · apply BitVec.eq_of_getLsbD_eq; intro k hk; interval_cases k <;> cases e <;> simp [encode, fieldIgnored]
  · cases e <;> simp [encode, fieldEn]
  · apply BitVec.eq_of_getLsbD_eq; intro k hk; interval_cases k <;> cases e <;> simp [encode, fieldIcon]

/-- The opcode and the remaining bits of the other reserved words (30_encoding.md R66). -/
theorem encode_reserved_fields (r : BitVec 12) (t : BitVec 13) (u : BitVec 15) :
    (fieldOpc (encode (.reservedOpc0 r)) = 0#4 ∧ (encode (.reservedOpc0 r)).extractLsb' 0 12 = r) ∧
    ((fieldOpc (encode (.reservedOpc67 t)) = 6#4 ∨ fieldOpc (encode (.reservedOpc67 t)) = 7#4) ∧
      (encode (.reservedOpc67 t)).extractLsb' 0 13 = t) ∧
    (8#4 ≤ fieldOpc (encode (.reservedOpc8F u)) ∧ (encode (.reservedOpc8F u)).extractLsb' 0 15 = u) := by
  refine ⟨⟨?_, ?_⟩, ⟨?_, ?_⟩, ⟨?_, ?_⟩⟩
  · apply BitVec.eq_of_getLsbD_eq; intro k hk; interval_cases k <;> simp [encode, fieldOpc]
  · apply BitVec.eq_of_getLsbD_eq; intro k hk; interval_cases k <;> simp [encode]
  · cases h : t[12]
    · left; apply BitVec.eq_of_getLsbD_eq; intro k hk; interval_cases k <;> simp [encode, fieldOpc, h]
    · right; apply BitVec.eq_of_getLsbD_eq; intro k hk; interval_cases k <;> simp [encode, fieldOpc, h]
  · apply BitVec.eq_of_getLsbD_eq; intro k hk; interval_cases k <;> simp [encode]
  · have : (fieldOpc (encode (.reservedOpc8F u))).getLsbD 3 = true := by simp [encode, fieldOpc]
    generalize fieldOpc (encode (.reservedOpc8F u)) = z at *
    revert z; decide
  · apply BitVec.eq_of_getLsbD_eq; intro k hk; interval_cases k <;> simp [encode]

/-- A word under the opcode mask is its opcode field, in place. -/
theorem opcode_and_mask (w : Word) : w &&& 0xF000#16 = (fieldOpc w).setWidth 16 <<< 12 := by
  apply BitVec.eq_of_getLsbD_eq; intro k hk; interval_cases k <;> simp [fieldOpc]

end Sys2Proof
end

