-- ==== Sys2Proof/Laws/Operands.lean ====
section
/-! SUPPORT. What the well-formedness of a configuration says of the operand forms: cells of digits never coincide,
icon bits are single and never shared, segment bits stay in the low nibble and clear of icon bits. -/

namespace Sys2Proof.Machine

variable (c : Configuration)

/-- The two cells of a position differ. -/
theorem cellLo_ne_cellHi (p : DigitPosition) : cellLo c p ≠ cellHi c p := by
  simp [cellLo, cellHi, Fin.ext_iff]

/-- Cells of different positions differ (10_state.md R26). -/
theorem digit_cells_disjoint {p q : DigitPosition} (h : p ≠ q) :
    cellLo c p ≠ cellLo c q ∧ cellLo c p ≠ cellHi c q ∧ cellHi c p ≠ cellLo c q ∧ cellHi c p ≠ cellHi c q := by
  obtain ⟨_, _, _, _, _, _, hd, _⟩ := c.wf
  have := hd p q h
  simp only [cellLo, cellHi, ne_eq, Fin.ext_iff]
  omega

/-- In-range operands are accepted as they are (41_set_digit.md R85). -/
@[simp] theorem digitOperands_inRange (p : DigitPosition) (v : DigitValue) :
    digitOperands (p.val : Int) (v.val : Int) = some (p, v) := by
  have := p.isLt
  have := v.isLt
  rw [digitOperands, dif_pos (by omega)]
  simp

/-- Out-of-range operands are not (41_set_digit.md R85). -/
theorem digitOperands_outOfRange {p v : Int} (h : p < 0 ∨ 9 ≤ p ∨ v < 0 ∨ 15 < v) : digitOperands p v = none := by
  rw [digitOperands, dif_neg (by omega)]

/-- Accepted operands are the numbers they stand for. -/
theorem digitOperands_some {p v : Int} {q : DigitPosition} {w : DigitValue} (h : digitOperands p v = some (q, w)) :
    p = (q.val : Int) ∧ v = (w.val : Int) := by
  unfold digitOperands at h
  split at h
  · simp only [Option.some.injEq, Prod.mk.injEq] at h
    obtain ⟨rfl, rfl⟩ := h
    simp only
    omega
  · cases h

/-- The table entry an icon operand stands for. -/
theorem iconOperand_entry {i : Nat} {b : IconBit} (h : iconOperand c i = some b) :
    ∃ hi : i < c.data.icon.length, b.cell.val = c.data.icon[i].cell ∧ b.mask = c.data.icon[i].mask := by
  unfold iconOperand at h
  split at h
  · next hi =>
    simp only [Option.some.injEq] at h
    subst h
    exact ⟨hi, rfl, rfl⟩
  · cases h

/-- An icon of the enumeration has an operand (42_set_icon.md R94). -/
theorem iconOperand_of_lt {i : Nat} (h : i < c.data.nIcons) : ∃ b, iconOperand c i = some b := by
  obtain ⟨_, _, _, hs, _⟩ := c.wf
  have hs : c.data.icon.length = c.data.nIcons := hs
  exact ⟨_, by rw [iconOperand, dif_pos (by omega)]⟩

/-- An index that names no icon has none. -/
theorem iconOperand_of_ge {i : Nat} (h : c.data.nIcons ≤ i) : iconOperand c i = none := by
  obtain ⟨_, _, _, hs, _⟩ := c.wf
  have hs : c.data.icon.length = c.data.nIcons := hs
  rw [iconOperand, dif_neg (by omega)]

/-- The mask of an icon is one of the eight one-bit masks (10_state.md R28). -/
theorem iconOperand_oneHot {i : Nat} {b : IconBit} (h : iconOperand c i = some b) :
    b.mask ∈ [0x01#8, 0x02#8, 0x04#8, 0x08#8, 0x10#8, 0x20#8, 0x40#8, 0x80#8] := by
  obtain ⟨hi, _, hm⟩ := iconOperand_entry c h
  obtain ⟨_, _, _, _, _, _, _, _, ho, _⟩ := c.wf
  exact hm ▸ ho _ (List.getElem_mem hi)

/-- An icon's bit is no segment bit of the first cell of a position (10_state.md R31). -/
theorem iconOperand_segLo {i : Nat} {b : IconBit} (h : iconOperand c i = some b) {p : DigitPosition}
    (hc : b.cell = cellLo c p) (v : DigitValue) : b.mask &&& segLo c v = 0#8 := by
  obtain ⟨hi, he, hm⟩ := iconOperand_entry c h
  obtain ⟨_, _, _, _, _, _, _, _, _, _, _, hd⟩ := c.wf
  rw [hm]
  exact (hd _ (List.getElem_mem hi) p v).1 (he ▸ congrArg Fin.val hc)

/-- An icon's bit is no segment bit of the second cell of a position (10_state.md R31). -/
theorem iconOperand_segHi {i : Nat} {b : IconBit} (h : iconOperand c i = some b) {p : DigitPosition}
    (hc : b.cell = cellHi c p) (v : DigitValue) : b.mask &&& segHi c v = 0#8 := by
  obtain ⟨hi, he, hm⟩ := iconOperand_entry c h
  obtain ⟨_, _, _, _, _, _, _, _, _, _, _, hd⟩ := c.wf
  rw [hm]
  exact (hd _ (List.getElem_mem hi) p v).2 (he ▸ congrArg Fin.val hc)

/-- Two icons never have the same cell and mask (10_state.md R29). -/
theorem iconOperand_injective {i j : Nat} {b : IconBit} (hi : iconOperand c i = some b)
    (hj : iconOperand c j = some b) : i = j := by
  obtain ⟨li, ci, mi⟩ := iconOperand_entry c hi
  obtain ⟨lj, cj, mj⟩ := iconOperand_entry c hj
  obtain ⟨_, _, _, _, _, _, _, _, _, hn, _⟩ := c.wf
  have he : c.data.icon[i] = c.data.icon[j] := by
    cases h1 : c.data.icon[i]
    cases h2 : c.data.icon[j]
    simp_all
  exact (List.Nodup.getElem_inj_iff hn).mp he

/-- Both bytes of a pattern stay in the low nibble (10_state.md R30). -/
theorem seg_lowNibble (v : DigitValue) : segLo c v &&& 0xF0#8 = 0#8 ∧ segHi c v &&& 0xF0#8 = 0#8 := by
  obtain ⟨_, _, _, _, _, _, _, _, _, _, hl, _⟩ := c.wf
  have h := hl v
  have bits : ∀ k, (c.data.seg[v] &&& 0xF0F0#16).getLsbD k = false := by intro k; rw [h]; simp
  constructor <;> apply BitVec.eq_of_getLsbD_eq <;> intro k hk <;> interval_cases k <;>
    simp [segLo, segHi, segPattern, lowerByte, upperByte]
  · simpa using bits 4
  · simpa using bits 5
  · simpa using bits 6
  · simpa using bits 7
  · simpa using bits 12
  · simpa using bits 13
  · simpa using bits 14
  · simpa using bits 15

/-- The two bytes of a pattern, joined, are the pattern (20_memory.md R39). -/
theorem joinBytes_seg (v : DigitValue) : joinBytes (segHi c v) (segLo c v) = segPattern c v := by
  apply BitVec.eq_of_getLsbD_eq
  intro k hk
  simp only [joinBytes, segHi, segLo, lowerByte, upperByte]
  rw [BitVec.getLsbD_append]
  split
  · next h => simp [h]
  · next h =>
    have lt : k - 8 < 8 := by omega
    have add : 8 + (k - 8) = k := by omega
    rw [BitVec.getLsbD_extractLsb']
    simp only [lt, add, decide_true, Bool.true_and]

/-- The 8-bit complement is the complement of a container. -/
theorem not8_eq_complement (a : Byte) : not8 a = ~~~a := by
  revert a
  decide

end Sys2Proof.Machine
end

