-- ==== Sys2Proof/Laws/State.lean ====
section
/-! SUPPORT. One lemma per field per update of State, so that no later proof unfolds a record update. -/

namespace Sys2Proof.Machine

section setCell
variable (s : State) (c : CellIndex) (b : Byte)
@[simp] theorem State.setCell_cfg : (s.setCell c b).cfg = s.cfg := rfl
@[simp] theorem State.setCell_trace : (s.setCell c b).trace = s.trace := rfl
@[simp] theorem State.setCell_input : (s.setCell c b).input = s.input := rfl
theorem State.setCell_buf : (s.setCell c b).buf = s.buf.set c b := rfl
end setCell

section emit
variable (s : State) (e : Event)
@[simp] theorem State.emit_cfg : (s.emit e).cfg = s.cfg := rfl
@[simp] theorem State.emit_buf : (s.emit e).buf = s.buf := rfl
@[simp] theorem State.emit_trace : (s.emit e).trace = s.trace ++ [e] := rfl
@[simp] theorem State.emit_input : (s.emit e).input = s.input := rfl
@[simp] theorem State.emit_cell (c : CellIndex) : (s.emit e).cell c = s.cell c := rfl
end emit

section zero
variable (s : State)
@[simp] theorem State.zero_cfg : s.zero.cfg = s.cfg := rfl
@[simp] theorem State.zero_buf : s.zero.buf = zeroBuffer := rfl
@[simp] theorem State.zero_trace : s.zero.trace = s.trace := rfl
@[simp] theorem State.zero_input : s.zero.input = s.input := rfl
end zero

section flush
variable (s : State)
@[simp] theorem State.flush_cfg : s.flush.cfg = s.cfg := rfl
@[simp] theorem State.flush_buf : s.flush.buf = s.buf := rfl
@[simp] theorem State.flush_input : s.flush.input = s.input := rfl
@[simp] theorem State.flush_cell (c : CellIndex) : s.flush.cell c = s.cell c := rfl
end flush

section bringUp
variable (s : State)
@[simp] theorem State.bringUp_cfg : s.bringUp.cfg = s.cfg := rfl
@[simp] theorem State.bringUp_buf : s.bringUp.buf = s.buf := rfl
@[simp] theorem State.bringUp_input : s.bringUp.input = s.input := rfl
theorem State.bringUp_trace : s.bringUp.trace =
    s.trace ++ [.ctrlInit, .cmd s.cfg.data.cmdSysEn, .cmd s.cfg.data.cmdLcdOn] := by
  simp [State.bringUp]
end bringUp

section setIconBit
variable (s : State) (b : IconBit) (e : Bool)
@[simp] theorem State.setIconBit_cfg : (s.setIconBit b e).cfg = s.cfg := rfl
@[simp] theorem State.setIconBit_trace : (s.setIconBit b e).trace = s.trace := rfl
@[simp] theorem State.setIconBit_input : (s.setIconBit b e).input = s.input := rfl
end setIconBit

section stageDigit
variable (s : State) (p : DigitPosition) (v : DigitValue)
@[simp] theorem State.stageDigit_cfg : (s.stageDigit p v).cfg = s.cfg := rfl
@[simp] theorem State.stageDigit_trace : (s.stageDigit p v).trace = s.trace := rfl
@[simp] theorem State.stageDigit_input : (s.stageDigit p v).input = s.input := rfl
end stageDigit

/-- Two states are equal when their four fields are. -/
theorem State.ext_fields {s t : State} (hc : s.cfg = t.cfg) (hb : s.buf = t.buf) (ht : s.trace = t.trace)
    (hi : s.input = t.input) : s = t := by
  cases s; cases t; simp_all

end Sys2Proof.Machine
end

