-- ==== Sys2Proof/Laws/Ops.lean ====
section
/-! SUPPORT. What the shared operations do to one container, and the display image of a longer trace. -/

namespace Sys2Proof.Machine

variable (s : State)

/-- A write to a container is read back. -/
@[simp] theorem State.setCell_cell_same (c : CellIndex) (b : Byte) : (s.setCell c b).cell c = b := by
  simp [State.setCell, State.cell]

/-- A write to a container leaves every other alone. -/
theorem State.setCell_cell_ne {c d : CellIndex} (h : d ≠ c) (b : Byte) : (s.setCell c b).cell d = s.cell d := by
  have : c.val ≠ d.val := fun e => h (Fin.ext e.symm)
  simp [State.setCell, State.cell, this]

/-- What a container holds after a write, either way. -/
theorem State.setCell_cell (c d : CellIndex) (b : Byte) :
    (s.setCell c b).cell d = if d = c then b else s.cell d := by
  split
  · next h => subst h; simp
  · next h => exact s.setCell_cell_ne h b

/-- Every container of the zeroed buffer is zero. -/
@[simp] theorem State.zero_cell (c : CellIndex) : s.zero.cell c = 0#8 := by
  simp [State.zero, State.cell, zeroBuffer]

/-- The whole buffer, read in ascending order. -/
@[simp] theorem State.memRead_whole : s.memRead 0 27 = s.buf.toList := by
  have : s.buf.toList.length = 27 := s.buf.length_toList
  simp [State.memRead, this]

/-- What a flush emits. -/
@[simp] theorem State.flush_trace : s.flush.trace = s.trace ++ [.write 0 27 s.buf.toList] := by
  simp [State.flush]

/-- Two states with the same containers have the same buffer. -/
theorem State.buf_ext {s t : State} (h : ∀ c, s.cell c = t.cell c) : s.buf = t.buf := by
  apply Vector.ext
  intro i hi
  exact h ⟨i, hi⟩

/-- Two states that agree on the tables, every container, the trace and the input are equal. -/
theorem State.ext_cells {s t : State} (hc : s.cfg = t.cfg) (hb : ∀ c, s.cell c = t.cell c)
    (ht : s.trace = t.trace) (hi : s.input = t.input) : s = t :=
  State.ext_fields hc (State.buf_ext hb) ht hi

/-- The last write of a longer trace, if it has one, is the image. -/
theorem displayImage_append (es fs : List Event) :
    displayImage (es ++ fs) = (displayImage fs).or (displayImage es) := by
  induction es with
  | nil => simp [displayImage]
  | cons e es ih =>
    cases e <;> simp [displayImage, ih]

end Sys2Proof.Machine
end

