-- ==== Sys2Proof/Laws/Exec.lean ====
section
/-! SUPPORT. One spec lemma per meaning, and the one inversion lemma of exec: everything an operation can do. -/

namespace Sys2Proof.Machine

variable (s : State)

/-- What staging a digit does to a container: the inverted nibbles leave no trace (41_set_digit.md R86). -/
theorem State.stageDigit_cell (p : DigitPosition) (v : DigitValue) (d : CellIndex) :
    (s.stageDigit p v).cell d =
      if d = cellHi s.cfg p then segHi s.cfg v
      else if d = cellLo s.cfg p then segLo s.cfg v else s.cell d := by
  simp only [State.stageDigit, State.setCell_cell, State.invertLowNibble]
  split <;> [rfl; split] <;> [rfl; skip]
  rfl

/-- What setting an icon's bit does to a container. -/
theorem State.setIconBit_cell (b : IconBit) (e : Bool) (d : CellIndex) :
    (s.setIconBit b e).cell d =
      if d = b.cell then (if e then s.cell b.cell ||| b.mask else s.cell b.cell &&& not8 b.mask)
      else s.cell d := by
  simp only [State.setIconBit, State.setCell_cell]

/-- A bit of a container after setting an icon's bit. -/
theorem State.setIconBit_getLsbD (b : IconBit) (e : Bool) (d : CellIndex) {k : Nat} (hk : k < 8) :
    ((s.setIconBit b e).cell d).getLsbD k =
      if d = b.cell ∧ b.mask.getLsbD k = true then e else (s.cell d).getLsbD k := by
  have ones : (255#8).getLsbD k = true := by interval_cases k <;> decide
  rw [State.setIconBit_cell]
  by_cases hd : d = b.cell
  · subst hd
    cases e <;> cases hm : b.mask.getLsbD k <;> simp [not8, hm, ones]
  · simp [hd]

/-- SET_DIGIT, operands in range. -/
theorem execSetDigit_inRange (p : DigitPosition) (v : DigitValue) :
    execSetDigit (p.val : Int) (v.val : Int) s = .next (s.stageDigit p v) := by
  simp [execSetDigit]

/-- SET_ICON, operand an icon. -/
theorem execSetIcon_icon {i : Nat} {b : IconBit} (h : iconOperand s.cfg i = some b) (e : Bool) :
    execSetIcon i e s = .next (s.setIconBit b e) := by
  simp [execSetIcon, h]

/-- Everything an operation can do, when it answers a next state. -/
theorem exec_next {i : Instr} {s t : State} (h : exec i s = .next t) :
    (i = .init ∧ t = s.bringUp.zero.flush.emit (.cmd s.cfg.data.cmdBias)) ∨
    (i = .clear ∧ t = s.zero) ∨
    (i = .update ∧ t = s.flush) ∨
    (∃ (p : DigitPosition) (v : DigitValue), i = .setDigit p.val v.val ∧ t = s.stageDigit p v) ∨
    (∃ n e b, i = .setIcon n e ∧ iconOperand s.cfg n = some b ∧ t = s.setIconBit b e) ∨
    (t = s ∧ ((∃ p v, i = .setDigit p v ∧ digitOperands p v = none) ∨ (∃ r, i = .reservedOpc0 r) ∨
      (∃ r, i = .reservedOpc67 r) ∨ (∃ r, i = .reservedOpc8F r) ∨ (∃ x e n, i = .reservedIcon x e n))) := by
  cases i with
  | init => simp only [exec, execInit, Host.Outcome.next.injEq] at h; exact .inl ⟨rfl, h.symm⟩
  | clear => simp only [exec, execClear, Host.Outcome.next.injEq] at h; exact .inr (.inl ⟨rfl, h.symm⟩)
  | update =>
    simp only [exec, execUpdate, Host.Outcome.next.injEq] at h; exact .inr (.inr (.inl ⟨rfl, h.symm⟩))
  | setDigit p v =>
    simp only [exec, execSetDigit] at h
    split at h
    · next hn =>
      simp only [Host.Outcome.next.injEq] at h
      exact .inr (.inr (.inr (.inr (.inr ⟨h.symm, .inl ⟨p, v, rfl, hn⟩⟩))))
    · next q w hs =>
      simp only [Host.Outcome.next.injEq] at h
      obtain ⟨rfl, rfl⟩ := digitOperands_some hs
      exact .inr (.inr (.inr (.inl ⟨q, w, rfl, h.symm⟩)))
  | setIcon n e =>
    simp only [exec, execSetIcon] at h
    split at h
    · cases h
    · next b hb =>
      simp only [Host.Outcome.next.injEq] at h
      exact .inr (.inr (.inr (.inr (.inl ⟨n, e, b, rfl, hb, h.symm⟩))))
  | reservedOpc0 r =>
    simp only [exec, execReservedOpc0, Host.Outcome.next.injEq] at h
    exact .inr (.inr (.inr (.inr (.inr ⟨h.symm, .inr (.inl ⟨r, rfl⟩)⟩))))
  | reservedOpc67 r =>
    simp only [exec, execReservedOpc67, Host.Outcome.next.injEq] at h
    exact .inr (.inr (.inr (.inr (.inr ⟨h.symm, .inr (.inr (.inl ⟨r, rfl⟩))⟩))))
  | reservedOpc8F r =>
    simp only [exec, execReservedOpc8F, Host.Outcome.next.injEq] at h
    exact .inr (.inr (.inr (.inr (.inr ⟨h.symm, .inr (.inr (.inr (.inl ⟨r, rfl⟩)))⟩))))
  | reservedIcon x e n =>
    simp only [exec, execReservedIcon, Host.Outcome.next.injEq] at h
    exact .inr (.inr (.inr (.inr (.inr ⟨h.symm, .inr (.inr (.inr (.inr ⟨x, e, n, rfl⟩)))⟩))))

/-- No operation on any state faults: the block has no fault. -/
theorem exec_ne_fault (i : Instr) (r : Fault) : exec i s ≠ .fault r := nomatch r

/-- A run of one more operation at its head. -/
theorem runOps_cons_next {i : Instr} {is : List Instr} {s t : State} (h : runOps (i :: is) s = .next t) :
    ∃ u, exec i s = .next u ∧ runOps is u = .next t := by
  simp only [runOps] at h
  split at h
  · next u hu => exact ⟨u, hu, h⟩
  · cases h
  · cases h

/-- What every operation keeps, every run keeps. -/
theorem runOps_keeps {P : State → Prop} (hexec : ∀ i s t, P s → exec i s = .next t → P t) :
    ∀ (ops : List Instr) (s t : State), P s → runOps ops s = .next t → P t := by
  intro ops
  induction ops with
  | nil =>
    intro s t hs h
    simp only [runOps, Host.Outcome.next.injEq] at h
    exact h ▸ hs
  | cons i is ih =>
    intro s t hs h
    obtain ⟨u, hu, h⟩ := runOps_cons_next h
    exact ih u t (hexec i s u hs hu) h

end Sys2Proof.Machine
end

