-- ==== Sys2Proof/Laws/PerInstr.lean ====
section
/-! SUPPORT. Statements made of every operation as syntax, one lemma per constructor. EncodedRow: the canonical word of
an operation selects the operation's own row of the opcode map (30_encoding.md R64). -/

namespace Sys2Proof.Laws.EncodedRow

/-- The canonical word of a well-formed operation selects a row that carries the operation's mnemonic, under every
`N_ICONS` of R11. -/
def Statement (i : Instr) : Prop :=
  ∀ nIcons ≤ 256, i.wf nIcons = true →
    ∃ r ∈ opcodeRows, r.mnemonic = i.mnemonic ∧ r.selects nIcons (encode i) = true

theorem init : Statement .init := fun _ _ _ => ⟨opcodeRows[0], by simp [opcodeRows], rfl, rfl⟩

theorem clear : Statement .clear := fun _ _ _ => ⟨opcodeRows[1], by simp [opcodeRows], rfl, rfl⟩

theorem update : Statement .update := fun _ _ _ => ⟨opcodeRows[2], by simp [opcodeRows], rfl, rfl⟩

theorem setDigit (p v : Int) : Statement (.setDigit p v) := by
  intro n _ hw
  obtain ⟨x, y, rfl, rfl⟩ := wf_setDigit_fields hw
  refine ⟨opcodeRows[3], by simp [opcodeRows], rfl, ?_⟩
  have h := (encode_setDigit_fields x y).1
  simp [opcodeRows, OpcodeRow.selects, opcode_and_mask, h]

theorem setIcon (i : Nat) (e : Bool) : Statement (.setIcon i e) := by
  intro n hn hw
  obtain ⟨y, rfl, hy⟩ := wf_setIcon_field hn hw
  refine ⟨opcodeRows[4], by simp [opcodeRows], rfl, ?_⟩
  obtain ⟨h, hi, _⟩ := encode_setIcon_fields y e
  have hi : (encode (.setIcon y.toNat e)).extractLsb' 0 8 = y := hi
  simp [opcodeRows, OpcodeRow.selects, opcode_and_mask, h, hi, hy]

theorem reservedOpc0 (r : BitVec 12) : Statement (.reservedOpc0 r) := by
  intro n _ _
  refine ⟨opcodeRows[5], by simp [opcodeRows], rfl, ?_⟩
  have h := (encode_reserved_fields r 0 0).1.1
  simp [opcodeRows, OpcodeRow.selects, opcode_and_mask, h]

theorem reservedOpc67 (r : BitVec 13) : Statement (.reservedOpc67 r) := by
  intro n _ _
  refine ⟨opcodeRows[6], by simp [opcodeRows], rfl, ?_⟩
  have : (encode (.reservedOpc67 r)) &&& 0xE000#16 = 0x6000#16 := by
    apply BitVec.eq_of_getLsbD_eq; intro k hk; interval_cases k <;> simp [encode]
  simp [opcodeRows, OpcodeRow.selects, this]

theorem reservedOpc8F (r : BitVec 15) : Statement (.reservedOpc8F r) := by
  intro n _ _
  refine ⟨opcodeRows[7], by simp [opcodeRows], rfl, ?_⟩
  have : (encode (.reservedOpc8F r)) &&& 0x8000#16 = 0x8000#16 := by
    apply BitVec.eq_of_getLsbD_eq; intro k hk; interval_cases k <;> simp [encode]
  simp [opcodeRows, OpcodeRow.selects, this]

theorem reservedIcon (x : BitVec 3) (e : Bool) (i : Byte) : Statement (.reservedIcon x e i) := by
  intro n _ hw
  simp only [Instr.wf, decide_eq_true_eq] at hw
  refine ⟨opcodeRows[8], by simp [opcodeRows], rfl, ?_⟩
  obtain ⟨h, _, _, hi⟩ := encode_reservedIcon_fields x e i
  have hi : (encode (.reservedIcon x e i)).extractLsb' 0 8 = i := hi
  simp [opcodeRows, OpcodeRow.selects, opcode_and_mask, h, hi, hw]

end Sys2Proof.Laws.EncodedRow
end

