-- ==== Sys2Proof/Laws/Step.lean ====
section
/-! SUPPORT. What one step is: idle with nothing presented, else the decoded operation on the state with the word
taken. -/

namespace Sys2Proof.Machine

/-- With nothing presented the block idles. -/
theorem step_nil {s : State} (h : s.input = []) : step s = .next s := by
  simp [step, h]

/-- With a word presented the block performs what it decodes to. -/
theorem step_cons {s : State} {w : Word} {rest : List Word} (h : s.input = w :: rest) :
    step s = exec (decode s.cfg.data.nIcons w) { s with input := rest } := by
  simp [step, h]

/-- What a step can be, when it answers a next state. -/
theorem step_next {s t : State} (h : step s = .next t) :
    (s.input = [] ∧ t = s) ∨
    ∃ w rest, s.input = w :: rest ∧ exec (decode s.cfg.data.nIcons w) { s with input := rest } = .next t := by
  cases hi : s.input with
  | nil => rw [step_nil hi] at h; cases h; exact .inl ⟨rfl, rfl⟩
  | cons w rest => rw [step_cons hi] at h; exact .inr ⟨w, rest, rfl, h⟩

/-- What taking a word and every operation keep, every step keeps. -/
theorem step_keeps {P : State → Prop} (hinput : ∀ s words, P s → P { s with input := words })
    (hexec : ∀ i s t, P s → exec i s = .next t → P t) (s t : State) (hs : P s) (h : step s = .next t) : P t := by
  rcases step_next h with ⟨_, rfl⟩ | ⟨w, rest, _, h⟩
  · exact hs
  · exact hexec _ _ _ (hinput s rest hs) h

end Sys2Proof.Machine
end

