-- ==== Sys2Proof/Tests/Slice0.lean ====
section
/-! SUPPORT. Tests: every check of WellFormed refuses an ill-formed term; words written out from the encoding decode;
the vectors of 95_test_vectors.md, one step each; and, for every statement with hypotheses, a state and operands that
meet them. Expected results come from the spec's own vectors and rules. -/

namespace Sys2Proof.Tests

open Sys2Proof.Machine

/-! ### WellFormed refuses, check by check -/

theorem test_wf_cfgTest : cfgTest.Wf := by decide

theorem test_wf_iconCount_zero : ¬ Config.IconCountInRange { cfgTest with nIcons := 0 } := by decide

theorem test_wf_iconCount_257 : ¬ Config.IconCountInRange { cfgTest with nIcons := 257 } := by decide

theorem test_wf_roomIsIcon : ¬ Config.RoomIsIcon { cfgTest with roomId := 8 } := by decide

theorem test_wf_commandsDistinct : ¬ Config.CommandsDistinct { cfgTest with cmdBias := ⟨0⟩ } := by decide

theorem test_wf_iconTableSize : ¬ Config.IconTableSize { cfgTest with nIcons := 7 } := by decide

theorem test_wf_ninePinned : ¬ Config.NinePinned { cfgTest with seg := cfgTest.seg.set 9 0x070F#16 } := by decide

theorem test_wf_digitCellsInRange :
    ¬ Config.DigitCellsInRange { cfgTest with posBase := cfgTest.posBase.set 8 26 } := by decide

theorem test_wf_digitPairsDisjoint :
    ¬ Config.DigitPairsDisjoint { cfgTest with posBase := cfgTest.posBase.set 1 1 } := by decide

theorem test_wf_iconCellsInRange : ¬ Config.IconCellsInRange { cfgTest with icon := [⟨27, 0x01#8⟩] } := by decide

theorem test_wf_iconMasksOneHot : ¬ Config.IconMasksOneHot { cfgTest with icon := [⟨6, 0x03#8⟩] } := by decide

theorem test_wf_iconBitsUnique :
    ¬ Config.IconBitsUnique { cfgTest with icon := [⟨6, 0x01#8⟩, ⟨6, 0x01#8⟩] } := by decide

theorem test_wf_segmentsInLowNibble :
    ¬ Config.SegmentsInLowNibble { cfgTest with seg := cfgTest.seg.set 0 0x0310#16 } := by decide

theorem test_wf_digitIconBitsDisjoint :
    ¬ Config.DigitIconBitsDisjoint { cfgTest with icon := [⟨1, 0x04#8⟩] } := by decide

theorem test_check_refuses : Configuration.check? { cfgTest with nIcons := 0 } = none := by decide

theorem test_check_accepts : Configuration.check? cfgTest = some Configuration.test := by decide

theorem test_instr_wf_position_negative : (Instr.setDigit (-1) 3).wf 8 = false := by decide

theorem test_instr_wf_position_16 : (Instr.setDigit 16 0).wf 8 = false := by decide

theorem test_instr_wf_value_negative : (Instr.setDigit 2 (-1)).wf 8 = false := by decide

theorem test_instr_wf_value_256 : (Instr.setDigit 0 256).wf 8 = false := by decide

theorem test_instr_wf_icon_8 : (Instr.setIcon 8 true).wf 8 = false := by decide

theorem test_instr_wf_reservedIcon_7 : (Instr.reservedIcon 0 true 7).wf 8 = false := by decide

/-! ### Decoding: words written out from 30_encoding.md R60 to R67 and 95_test_vectors.md section 3.1 -/

/-- OPC 0001, ignored 000000000000. -/
theorem test_decode_INIT : decode 8 0b0001000000000000#16 = .init := by decide

/-- 0x1ABC: ignored bits nonzero. -/
theorem test_decode_INIT_ignored : decode 8 0x1ABC#16 = .init := by decide

/-- OPC 0010. -/
theorem test_decode_CLEAR : decode 8 0b0010000000000000#16 = .clear := by decide

/-- OPC 0011. -/
theorem test_decode_UPDATE : decode 8 0b0011000000000000#16 = .update := by decide

/-- OPC 0100, POS 0000, VAL 00001001. -/
theorem test_decode_SET_DIGIT : decode 8 0b0100000000001001#16 = .setDigit 0 9 := by decide

/-- 0x4905: out of range, yet SET_DIGIT (R68). -/
theorem test_decode_SET_DIGIT_outOfRange : decode 8 0x4905#16 = .setDigit 9 5 := by decide

/-- OPC 0101, ignored 111, EN 1, ICON 00000111. -/
theorem test_decode_SET_ICON : decode 8 0b0101111100000111#16 = .setIcon 7 true := by decide

/-- 0x5E07: `W[8]` = 0. -/
theorem test_decode_SET_ICON_off : decode 8 0x5E07#16 = .setIcon 7 false := by decide

/-- 0x0000 is reserved. -/
theorem test_decode_RESERVED_OPC0 : decode 8 0x0000#16 = .reservedOpc0 0 := by decide

/-- 0x6000 and 0x7123 are reserved. -/
theorem test_decode_RESERVED_OPC6_7 :
    decode 8 0x6000#16 = .reservedOpc67 0 ∧ decode 8 0x7123#16 = .reservedOpc67 0x1123#13 := by decide

/-- 0xF123 is reserved. -/
theorem test_decode_RESERVED_OPC8_F : decode 8 0xF123#16 = .reservedOpc8F 0x7123#15 := by decide

/-- 0x5108: ICON = N_ICONS. -/
theorem test_decode_RESERVED_ICON : decode 8 0x5108#16 = .reservedIcon 0 true 8 := by decide

/-- The canonical words of the programs of 95_test_vectors.md section 4. -/
theorem test_encode_words :
    encode .init = 0x1000#16 ∧ encode .clear = 0x2000#16 ∧ encode .update = 0x3000#16 ∧
    encode (.setDigit 3 16) = 0x4310#16 ∧ encode (.setDigit 8 15) = 0x480F#16 ∧
    encode (.setIcon 4 true) = 0x5104#16 ∧ encode (.setIcon 2 false) = 0x5002#16 := by decide

theorem test_decodeTableWord_INIT : decodeTableWord 16 0x1000 = some .init := by decide

theorem test_decodeTableWord_short : decodeTableWord 8 0x09 = some (.reservedOpc0 9) := by decide

theorem test_decodeTableWord_long : decodeTableWord 24 0x1000 = none := by decide

/-- A word put where the step takes its next one is the word run. -/
theorem test_withFetchWord : step (State.reset.withFetchWord 16 0x2000) = exec .clear State.reset := by rfl

/-! ### One step each: the vectors of 95_test_vectors.md section 3 -/

/-- A state of `CFG_TEST` with the given containers set in a buffer full of one byte, nothing emitted. -/
def stateOf (fill : Byte) (cells : List (CellIndex × Byte)) : State :=
  cells.foldl (fun s c => s.setCell c.1 c.2) (State.resetOf Configuration.test (Vector.replicate 27 fill))

/-- The state an outcome holds. -/
def outcomeState : Host.Outcome State Fault Refusal → Option State
  | .next s => some s
  | .fault _ => none
  | .refused _ => none

/-- The containers after an operation, in index order. -/
def cellsAfter (i : Instr) (s : State) : Option (List Byte) := (outcomeState (exec i s)).map (·.buf.toList)

/-- The events after an operation. -/
def traceAfter (i : Instr) (s : State) : Option (List Event) := (outcomeState (exec i s)).map (·.trace)

/-- V1. -/
theorem test_INIT_V1 : cellsAfter .init (stateOf 0xA5 []) = some (List.replicate 27 0) ∧
    traceAfter .init (stateOf 0xA5 []) = some [.ctrlInit, .cmd ⟨0⟩, .cmd ⟨1⟩,
      .write 0 27 (List.replicate 27 0), .cmd ⟨2⟩] := by decide

/-- V2, its first, second and last container. -/
theorem test_UPDATE_V2 : traceAfter .update (stateOf 0x00 [(1, 1), (26, 0x1A)]) =
    some [.write 0 27 ([0, 1] ++ List.replicate 24 0 ++ [0x1A])] := by decide

/-- V3: high nibbles too, trace unchanged. -/
theorem test_CLEAR_V3 : cellsAfter .clear (stateOf 0xFF []) = some (List.replicate 27 0) ∧
    traceAfter .clear (stateOf 0xFF []) = some [] := by decide

/-- V5: old contents leave no trace, neighbours keep theirs. -/
theorem test_SET_DIGIT_V5 :
    ((outcomeState (exec (.setDigit 3 5) (stateOf 0 [(7, 0xA5), (8, 0x5A), (6, 0x33), (9, 0xCC)]))).map
      fun s => [s.cell 6, s.cell 7, s.cell 8, s.cell 9]) = some [0x33, 0x0D, 0x06, 0xCC] := by decide

/-- V8: the no-ops, negative operands among them. -/
theorem test_SET_DIGIT_V8 : ∀ q ∈ [((9 : Int), (0 : Int)), (15, 0), (0, 16), (0, 255), (9, 16), (-1, 3), (2, -1)],
    cellsAfter (.setDigit q.1 q.2) (stateOf 0xA5 []) = some (List.replicate 27 0xA5) := by decide

/-- V12, V13: one bit of an otherwise full container. -/
theorem test_SET_ICON_V12 :
    ((outcomeState (exec (.setIcon 2 false) (stateOf 0 [(13, 0xFF)]))).map (·.cell 13)) = some 0xF7 ∧
    ((outcomeState (exec (.setIcon 2 true) (stateOf 0 [(13, 0xA5)]))).map (·.cell 13)) = some 0xAD := by decide

/-- V16: the last cell, and nothing else. -/
theorem test_SET_ICON_V16 :
    cellsAfter (.setIcon 5 true) (stateOf 0 []) = some (List.replicate 26 0 ++ [1]) := by decide

/-- An index that names no icon is refused by name. -/
theorem test_SET_ICON_refused : exec (.setIcon 8 true) (stateOf 0 []) = .refused (.iconNotInEnumeration 8) := by rfl

/-- V17 and P3: reserved words change nothing. -/
theorem test_RESERVED_V17 : ∀ i ∈ [Instr.reservedIcon 0 true 8, .reservedIcon 0 true 0xFF, .reservedOpc0 0,
    .reservedOpc67 0x1123, .reservedOpc8F 0x7123],
    cellsAfter i (stateOf 0xA5 []) = some (List.replicate 27 0xA5) ∧ traceAfter i (stateOf 0xA5 []) = some [] := by
  decide

/-- The display image is the data of the last write (10_state.md R35). -/
theorem test_displayImage : displayImage [.write 0 27 [1], .cmd ⟨0⟩, .write 0 27 [2], .ctrlInit] = some [2] ∧
    displayImage [.ctrlInit, .cmd ⟨0⟩] = none := by decide

/-! ### The assembler, on lines of 30_encoding.md R69 and 95_test_vectors.md section 4 -/

theorem test_assemble_room :
    assembleLine cfgTest cfgTestNames "SET_ICON ROOM, 1    ; 0x5100".toList = .ok (some (.setIcon 0 true)) := by rfl

theorem test_assemble_call : assembleLine cfgTest cfgTestNames "set_digit(0, 9)".toList = .ok (some (.setDigit 0 9)) := by
  rfl

theorem test_assemble_hex :
    assembleLine cfgTest cfgTestNames "SET_DIGIT 15, 0xFF".toList = .ok (some (.setDigit 15 255)) := by rfl

theorem test_assemble_name_off :
    assembleLine cfgTest cfgTestNames "set_icon(TI2, off)".toList = .ok (some (.setIcon 2 false)) := by rfl

theorem test_assemble_position_16 :
    assembleLine cfgTest cfgTestNames "SET_DIGIT 16, 0".toList = .error .badPosition := by rfl

theorem test_assemble_words : assemble cfgTest cfgTestNames ["INIT".toList, "; a comment".toList, "UPDATE".toList] =
    .ok [0x1000#16, 0x3000#16] := by rfl

/-! ### The duties of the host: P2's order loses the icon, its cure keeps it -/

theorem test_hostDuties_P1 :
    hostDuties Configuration.test [.init, .setDigit 0 9, .setIcon 0 true, .update] = true := by decide

theorem test_hostDuties_P2 :
    iconsAfterDigits Configuration.test ⟨[], []⟩ [.setIcon 4 true, .setDigit 0 8, .update] = false ∧
    iconsAfterDigits Configuration.test ⟨[], []⟩ [.setDigit 0 8, .setIcon 4 true, .update] = true := by decide

/-! ### Witnesses: a state and operands that meet the hypotheses of each statement -/

/-- A configuration with an icon in the first and one in the second cell of position 0 (CFG_TEST has none in a first
cell), both in high nibbles. -/
def cfgShared : Configuration :=
  ⟨{ cfgTest with nIcons := 2, icon := [⟨0, 0x10#8⟩, ⟨1, 0x80#8⟩] }, by decide⟩

theorem witness_TableAliasingExcluded :
    ((0 : DigitPosition) ≠ 8) ∧
    iconOperand Configuration.test 0 = some ⟨6, 0x01#8⟩ ∧ iconOperand Configuration.test 1 = some ⟨6, 0x02#8⟩ ∧
    iconOperand cfgShared 0 = some ⟨0, 0x10#8⟩ ∧ cellLo cfgShared 0 = 0 ∧
    iconOperand cfgShared 1 = some ⟨1, 0x80#8⟩ ∧ cellHi cfgShared 0 = 1 := by decide

theorem witness_InitIsBringUpClearUpdateBias :
    (∃ t, runOps [.clear, .update] (((stateOf 0 []).emit .ctrlInit).emit (.cmd ⟨0⟩)) = .next t) ∧
    ∃ t, Instr.init ∉ [Instr.clear, .update, .setDigit 8 15] ∧
      runOps [.clear, .update, .setDigit 8 15] (stateOf 0xA5 []) = .next t :=
  ⟨⟨_, rfl⟩, _, by decide, rfl⟩

theorem witness_ClearAbsorbsStaging :
    ∃ t, (∀ i ∈ [Instr.setDigit 0 5, .setIcon 7 true, .clear, .setDigit 9 16], i.stages = true) ∧
      runOps [.setDigit 0 5, .setIcon 7 true, .clear, .setDigit 9 16] (stateOf 0xA5 []) = .next t :=
  ⟨_, by decide, rfl⟩

/-- Each of the four range tests alone, at its boundary. -/
theorem witness_SetDigitOutOfRangeIsSilent : ∀ q ∈ [((-1 : Int), (0 : Int)), (9, 0), (0, -1), (0, 16)],
    (q.1 < 0 ∨ q.1 ≥ 9 ∨ q.2 < 0 ∨ q.2 > 15) ∧
    cellsAfter (.setDigit q.1 q.2) (stateOf 0xA5 []) = some (List.replicate 27 0xA5) := by decide

/-- The largest operands in range, an icon in the second cell, one in the first, one in neither. -/
theorem witness_SetDigitReadsBackAndKeepsTheRest :
    (∃ t, exec (.setDigit 8 15) (stateOf 0xA5 []) = .next t) ∧
    (iconOperand Configuration.test 4 = some ⟨1, 0x08#8⟩ ∧ cellHi Configuration.test 0 = 1) ∧
    (iconOperand cfgShared 0 = some ⟨0, 0x10#8⟩ ∧ cellLo cfgShared 0 = 0) ∧
    (iconOperand Configuration.test 0 = some ⟨6, 0x01#8⟩ ∧ cellLo Configuration.test 3 = 7 ∧
      cellHi Configuration.test 3 = 8) :=
  ⟨⟨_, rfl⟩, by decide, by decide, by decide⟩

theorem witness_DigitsLastWriteWinsAndReorder :
    (∃ t, runOps [.setDigit 0 8, .setDigit 8 1] (stateOf 0xA5 []) = .next t) ∧ (0 : DigitPosition) ≠ 8 ∧
    (iconOperand Configuration.test 0 = some ⟨6, 0x01#8⟩ ∧ (6 : CellIndex) ≠ cellLo Configuration.test 3 ∧
      (6 : CellIndex) ≠ cellHi Configuration.test 3) ∧
    (iconOperand Configuration.test 7 = some ⟨8, 0x08#8⟩ ∧ (8 : CellIndex) = cellHi Configuration.test 3) :=
  ⟨⟨_, rfl⟩, by decide, by decide, by decide⟩

/-- The last icon of the enumeration. -/
theorem witness_SetIconOrsOrMasksItsContainer : 7 < (stateOf 0 []).cfg.data.nIcons := by decide

/-- The bit to be changed, and the bit that already has its value. -/
theorem witness_SetIconChangesExactlyItsBit :
    iconOperand (stateOf 0 []).cfg 5 = some ⟨26, 0x01#8⟩ ∧
    (stateOf 0 []).cell 26 &&& 0x01#8 = 0#8 ∧ (stateOf 0xFF []).cell 26 &&& 0x01#8 = 0x01#8 := by decide

theorem witness_IconsDoNotDisturbOneAnother : (0 : Nat) ≠ 1 ∧
    iconOperand (stateOf 0 []).cfg 0 = some ⟨6, 0x01#8⟩ ∧ iconOperand (stateOf 0 []).cfg 1 = some ⟨6, 0x02#8⟩ := by
  decide

/-- The first index that names no icon. -/
theorem witness_SetIconOutsideEnumerationIsRefused : (stateOf 0 []).cfg.data.nIcons ≤ 8 := by decide

/-- A next state of every kind of operation: for the statements about all of them. -/
theorem witness_exec_answers_next : ∀ i ∈ [Instr.init, .clear, .update, .setDigit 8 15, .setDigit 9 0, .setIcon 7 true,
    .reservedOpc0 0, .reservedOpc67 0, .reservedOpc8F 0, .reservedIcon 0 true 8],
    (outcomeState (exec i (stateOf 0xA5 []))).isSome = true := by decide

theorem witness_OperationsKeepTablesAndPastEvents : ∃ t, exec .update (stateOf 0xA5 []) = .next t := ⟨_, rfl⟩

theorem witness_OnlyCommitsReachTheTransport :
    (∃ t, exec .init (stateOf 0xA5 []) = .next t ∧ Instr.init.commits = true) ∧
    (∃ t, exec .clear (stateOf 0xA5 []) = .next t ∧ Instr.clear.commits = false) := ⟨⟨_, rfl, rfl⟩, _, rfl, rfl⟩

theorem witness_StagedChangesAreInvisible :
    ∃ t, (∀ i ∈ [Instr.clear, .setDigit 0 1, .reservedOpc0 3], i.commits = false) ∧
      runOps [.clear, .setDigit 0 1, .reservedOpc0 3] (stateOf 0xA5 []) = .next t := ⟨_, by decide, rfl⟩

theorem witness_StagingIsIdempotent :
    (∃ t, (Instr.setDigit 3 5).stages = true ∧ exec (.setDigit 3 5) (stateOf 0xA5 []) = .next t) ∧
    (∃ t u, exec .update (stateOf 0xA5 []) = .next t ∧ exec .update t = .next u) :=
  ⟨⟨_, rfl, rfl⟩, _, _, rfl, rfl⟩

/-- Cell 21 of CFG_TEST belongs to nothing. -/
theorem witness_UnownedCellsChangeOnlyByZeroing :
    Unowned (stateOf 0 []).cfg 21 ∧ (∃ t, exec .clear (stateOf 0xA5 []) = .next t) ∧
    ∃ t, exec (.setIcon 3 true) (stateOf 0xA5 []) = .next t := by
  refine ⟨⟨by decide, ?_⟩, ⟨_, rfl⟩, _, rfl⟩
  intro i b h
  by_cases hi : i < 8
  · have : ∀ i < 8, ∀ b ∈ iconOperand Configuration.test i, b.cell ≠ 21 := by decide
    exact this i hi b h
  · have : iconOperand (stateOf 0 []).cfg i = none := dif_neg hi
    rw [this] at h
    cases h

theorem witness_TraceAndInputAreNotRead :
    (stateOf 0xA5 []).cfg = { stateOf 0xA5 [] with trace := [.ctrlInit], input := [0x1000#16] }.cfg ∧
    (stateOf 0xA5 []).buf = { stateOf 0xA5 [] with trace := [.ctrlInit], input := [0x1000#16] }.buf ∧
    ∃ t, exec .update (stateOf 0xA5 []) = .next t := ⟨rfl, rfl, _, rfl⟩

/-- Each of the four range tests alone, at its boundary, and each reserved row; and a run with a next state. -/
theorem witness_IgnoredOperationsHaveNoInfluence :
    (∀ q ∈ [((-1 : Int), (0 : Int)), (9, 0), (0, -1), (0, 16)],
      ∃ p v, Instr.setDigit q.1 q.2 = .setDigit p v ∧ (p < 0 ∨ p > 8 ∨ v < 0 ∨ v > 15)) ∧
    (∃ r, Instr.reservedOpc0 3 = .reservedOpc0 r) ∧ (∃ r, Instr.reservedOpc67 3 = .reservedOpc67 r) ∧
    (∃ r, Instr.reservedOpc8F 3 = .reservedOpc8F r) ∧
    (∃ x e n, Instr.reservedIcon 0 true 8 = .reservedIcon x e n) ∧
    ∃ t, runOps [.init, .setDigit 0 9] (stateOf 0xA5 []) = .next t :=
  ⟨fun q hq => ⟨q.1, q.2, rfl, by revert q; decide⟩, ⟨_, rfl⟩, ⟨_, rfl⟩, ⟨_, rfl⟩, ⟨_, _, _, rfl⟩, _, rfl⟩

/-- The operands at the ends of their fields, an icon at each end of the enumeration, a reserved icon just past it. -/
theorem witness_DecodeOfEncodeIsIdentity : (8 : Nat) ≤ 256 ∧
    ∀ i ∈ [Instr.setDigit 0 0, .setDigit 15 255, .setIcon 0 false, .setIcon 7 true, .reservedIcon 7 true 8,
      .reservedIcon 7 false 255], i.wf 8 = true := by decide

/-- A word for each clause, at the ends of its range. -/
theorem witness_DecodeFollowsTheFields :
    (0x1FFF#16).toNat / 4096 = 1 ∧ (0x2000#16).toNat / 4096 = 2 ∧ (0x3FFF#16).toNat / 4096 = 3 ∧
    (0x4FFF#16).toNat / 4096 = 4 ∧ ((0x5E07#16).toNat / 4096 = 5 ∧ (0x5E07#16).toNat % 256 < 8) ∧
    (0x0FFF#16).toNat / 4096 = 0 ∧ 6 ≤ (0x6000#16).toNat / 4096 ∧ 6 ≤ (0xFFFF#16).toNat / 4096 ∧
    ((0x5108#16).toNat / 4096 = 5 ∧ 8 ≤ (0x5108#16).toNat % 256) := by decide

theorem witness_IgnoredBitsDoNotSelect :
    ((0x1000#16).toNat / 4096 = (0x1ABC#16).toNat / 4096 ∧ (0x1000#16).toNat / 4096 ∈ [1, 2, 3]) ∧
    ((0x5107#16).toNat / 4096 = 5 ∧ (0x5F07#16).toNat / 4096 = 5 ∧
      (0x5107#16).toNat % 512 = (0x5F07#16).toNat % 512 ∧ (0x5107#16).toNat % 256 < 8) := by decide

theorem witness_AssemblerReadsWhatItShows : (Instr.setDigit 15 255).wf 8 = true ∧
    showInstr (.setDigit 15 255) = some "SET_DIGIT 15, 255".toList := by decide

theorem witness_StepRunsTheDecodedWord :
    ((stateOf 0 []).issue [0x4009#16, 0x3000#16]).input = [0x4009#16, 0x3000#16] ∧ (stateOf 0 []).input = [] := by
  decide

theorem witness_StepRunsTheEncodedOperation : (Instr.setIcon 7 true).wf (stateOf 0 []).cfg.data.nIcons = true ∧
    ((stateOf 0 []).issue [0x5107#16]).input = [encode (.setIcon 7 true)] := by decide

theorem witness_EveryWordAndOperationCompletes :
    ∀ n e, Instr.setIcon 7 true = .setIcon n e → n < (stateOf 0 []).cfg.data.nIcons := by
  intro n e h
  cases h
  decide

theorem witness_StepKeepsTraceWhole :
    (∃ t, (stateOf 0xA5 []).TraceWhole ∧ exec .init (stateOf 0xA5 []) = .next t) ∧
    ((stateOf 0xA5 []).issue [0x1000#16]).TraceWhole ∧
    ∃ t, step ((stateOf 0xA5 []).issue [0x1000#16]) = .next t := by
  refine ⟨⟨_, ?_, rfl⟩, ?_, _, rfl⟩ <;> intro e he <;> cases he

theorem witness_HighNibblesStayZero :
    (∃ t, exec .clear (stateOf 0xA5 []) = .next t) ∧ IconMasksLow (stateOf 0 []).cfg ∧
    ((stateOf 0x0F []).issue [0x5107#16]).HighNibblesZero ∧
    ∃ t, step ((stateOf 0x0F []).issue [0x5107#16]) = .next t := by
  refine ⟨⟨_, rfl⟩, ?_, ?_, _, rfl⟩
  · unfold IconMasksLow; decide
  · unfold State.HighNibblesZero; decide

theorem witness_OperationsRefineThePicture :
    (stateOf 0 []).Shows Picture.blank ∧ ∃ t, exec (.setDigit 0 9) (stateOf 0 []) = .next t := by
  refine ⟨?_, _, rfl⟩
  intro cell k hk
  have hz : ∀ c : CellIndex, (stateOf 0 []).cell c = 0#8 := by decide
  rw [hz cell]
  constructor
  · simp
  · rintro (⟨p, v, h, _⟩ | ⟨i, b, h, _⟩) <;> simp [Picture.blank] at h

theorem witness_RunsShowTheirPicture :
    (∃ t, runOps [.clear, .setDigit 0 9, .setIcon 4 true] (stateOf 0xA5 []) = .next t) ∧
    ∃ t, runOps [.init, .setIcon 4 true, .setDigit 0 9] (stateOf 0xA5 []) = .next t := ⟨⟨_, rfl⟩, _, rfl⟩

theorem witness_IconStaysOnUntilPutOut :
    iconOperand (stateOf 0 []).cfg 4 = some ⟨1, 0x08#8⟩ ∧ (stateOf 0 [(1, 0x08)]).iconOn ⟨1, 0x08#8⟩ = true ∧
    (∀ op ∈ [Instr.setDigit 3 5, .update, .setIcon 0 false], putsOut (stateOf 0 []).cfg 4 op = false) ∧
    ∃ t, runOps [.setDigit 3 5, .update, .setIcon 0 false] (stateOf 0 [(1, 0x08)]) = .next t :=
  ⟨by decide, by decide, by decide, _, rfl⟩

theorem witness_DigitFirstIconSecondKeepsIcons :
    iconsAfterDigits (stateOf 0 []).cfg ⟨[], []⟩ ([.init, .setDigit 0 9, .setIcon 4 true] ++ [.update]) = true ∧
    (∃ t, runOps [.init, .setDigit 0 9, .setIcon 4 true] (stateOf 0 []) = .next t) ∧
    4 ∈ (IconLedger.applyAll (stateOf 0 []).cfg ⟨[], []⟩ [.init, .setDigit 0 9, .setIcon 4 true]).wanted :=
  ⟨by decide, ⟨_, rfl⟩, by decide⟩

end Sys2Proof.Tests
end

/-! SUPPORT. The tables and the state at reset (10_state.md): what the table reads return as numbers, the aliasing the
checks exclude, and the high nibbles of the buffer. -/

namespace Sys2Proof.Machine

/-! ### Table reads -/

section tables
variable (c : Configuration)

/-- The first cell of a position as a number (10_state.md R22). -/
@[simp] theorem cellLo_val (p : DigitPosition) : (cellLo c p).val = c.data.posBase[p] := rfl

/-- The second cell of a position as a number (10_state.md R22). -/
@[simp] theorem cellHi_val (p : DigitPosition) : (cellHi c p).val = c.data.posBase[p] + 1 := rfl

/-- The byte of the first cell is the low one of the pattern (20_memory.md R39). -/
theorem segLo_toNat (v : DigitValue) : (segLo c v).toNat = c.data.seg[v].toNat % 256 := by
  simp [segLo, segPattern, lowerByte]

/-- The byte of the second cell is the high one of the pattern (20_memory.md R39). -/
theorem segHi_toNat (v : DigitValue) : (segHi c v).toNat = c.data.seg[v].toNat / 256 := by
  have lt : c.data.seg[v].toNat < 65536 := c.data.seg[v].isLt
  simp only [segHi, segPattern, upperByte, BitVec.extractLsb'_toNat, Nat.shiftRight_eq_div_pow]
  omega

/-- The pattern of 9 is pinned (10_state.md R24). -/
theorem segPattern_nine : segPattern c 9 = 0x060F#16 := by
  obtain ⟨_, _, _, _, pinned, _⟩ := c.wf
  exact pinned

theorem segLo_nine : segLo c 9 = 0x0F#8 := by
  rw [segLo, segPattern_nine]
  decide

theorem segHi_nine : segHi c 9 = 0x06#8 := by
  rw [segHi, segPattern_nine]
  decide

/-- The indices that name an icon are those below `N_ICONS` (42_set_icon.md R94). -/
theorem iconOperand_isSome_iff {i : Nat} : (∃ b, iconOperand c i = some b) ↔ i < c.data.nIcons := by
  refine ⟨?_, iconOperand_of_lt c⟩
  rintro ⟨b, hb⟩
  by_contra hge
  rw [iconOperand_of_ge c (not_lt.mp hge)] at hb
  cases hb

/-- An icon operand, read as cell and mask, is the entry of the table (10_state.md R23). -/
theorem iconOperand_map_entry (i : Nat) :
    (iconOperand c i).map (fun b => (b.cell.val, b.mask)) = c.data.icon[i]?.map fun e => (e.cell, e.mask) := by
  by_cases hi : i < c.data.icon.length <;> simp [iconOperand, hi]

end tables

/-! ### Aliasing -/

/-- Two different one-bit masks have no bit in common. -/
theorem oneHot_disjoint :
    ∀ m ∈ [0x01#8, 0x02#8, 0x04#8, 0x08#8, 0x10#8, 0x20#8, 0x40#8, 0x80#8],
    ∀ n ∈ [0x01#8, 0x02#8, 0x04#8, 0x08#8, 0x10#8, 0x20#8, 0x40#8, 0x80#8], m ≠ n → m &&& n = 0#8 := by
  decide

/-- Different icons of one cell have disjoint masks (10_state.md R28, R29). -/
theorem iconOperand_masks_disjoint (c : Configuration) {i j : Nat} {b d : IconBit} (hb : iconOperand c i = some b)
    (hd : iconOperand c j = some d) (hij : i ≠ j) (hcell : b.cell = d.cell) : b.mask &&& d.mask = 0#8 := by
  refine oneHot_disjoint _ (iconOperand_oneHot c hb) _ (iconOperand_oneHot c hd) fun hmask => hij ?_
  have same : b = d := by
    cases b
    cases d
    simp_all
  exact iconOperand_injective c hb (same ▸ hd)

/-! ### High nibbles -/

/-- Setting or clearing bits under a low-nibble mask leaves a zero high nibble zero. -/
theorem highNibble_setBits {a m : Byte} (ha : a &&& 0xF0#8 = 0#8) (hm : m &&& 0xF0#8 = 0#8) (enabled : Bool) :
    (if enabled then a ||| m else a &&& not8 m) &&& 0xF0#8 = 0#8 := by
  cases enabled
  · calc a &&& not8 m &&& 0xF0#8 = a &&& 0xF0#8 &&& not8 m := by ac_rfl
      _ = 0#8 := by rw [ha, BitVec.zero_and]
  · calc (a ||| m) &&& 0xF0#8 = a &&& 0xF0#8 ||| m &&& 0xF0#8 := BitVec.and_or_distrib_right
      _ = 0#8 := by rw [ha, hm, BitVec.or_self]

/-- The mask of an icon lies in the low nibble when the table's masks do. -/
theorem iconOperand_maskLow {c : Configuration} (hlow : IconMasksLow c) {i : Nat} {b : IconBit}
    (h : iconOperand c i = some b) : b.mask &&& 0xF0#8 = 0#8 := by
  obtain ⟨hi, _, hm⟩ := iconOperand_entry c h
  exact hm ▸ hlow _ (List.getElem_mem hi)

/-- The zeroed buffer has no high nibble (10_state.md R16). -/
theorem State.zero_highNibblesZero (s : State) : s.zero.HighNibblesZero := by
  intro c
  simp

/-- A digit writes bytes of the low nibble (10_state.md R30). -/
theorem State.HighNibblesZero.stageDigit {s : State} (h : s.HighNibblesZero) (p : DigitPosition) (v : DigitValue) :
    (s.stageDigit p v).HighNibblesZero := by
  intro c
  obtain ⟨lo, hi⟩ := seg_lowNibble s.cfg v
  rw [State.stageDigit_cell]
  split
  · exact hi
  split
  · exact lo
  · exact h c

/-- An icon whose mask lies in the low nibble changes no high nibble. -/
theorem State.HighNibblesZero.setIconBit {s : State} (h : s.HighNibblesZero) {b : IconBit}
    (hmask : b.mask &&& 0xF0#8 = 0#8) (enabled : Bool) : (s.setIconBit b enabled).HighNibblesZero := by
  intro c
  rw [State.setIconBit_cell]
  split
  · exact highNibble_setBits (h b.cell) hmask enabled
  · exact h c

/-- No operation changes the tables (10_state.md R55). -/
theorem exec_cfg {i : Instr} {s t : State} (h : exec i s = .next t) : t.cfg = s.cfg := by
  obtain ⟨_, rfl⟩ | ⟨_, rfl⟩ | ⟨_, rfl⟩ | ⟨_, _, _, rfl⟩ | ⟨_, _, _, _, _, rfl⟩ | ⟨rfl, _⟩ := exec_next h <;> rfl

/-- Every operation keeps the high nibbles zero, icon masks being low (10_state.md R16). -/
theorem exec_highNibblesZero {i : Instr} {s t : State} (hlow : IconMasksLow s.cfg) (hs : s.HighNibblesZero)
    (h : exec i s = .next t) : t.HighNibblesZero := by
  obtain ⟨_, rfl⟩ | ⟨_, rfl⟩ | ⟨_, rfl⟩ | ⟨p, v, _, rfl⟩ | ⟨n, e, b, _, hb, rfl⟩ | ⟨rfl, _⟩ := exec_next h
  · exact s.bringUp.zero_highNibblesZero
  · exact s.zero_highNibblesZero
  · exact hs
  · exact hs.stageDigit p v
  · exact hs.setIconBit (iconOperand_maskLow hlow hb) e
  · exact hs

end Sys2Proof.Machine

/-! SUPPORT. The statements of 10_state.md settled. -/

namespace Sys2Proof.Proofs

open Sys2Proof.Machine

/-- Settles O44: the invariant carries the premise on the masks along, since the tables never change. -/
theorem highNibblesStayZero : Obligations.HighNibblesStayZero := by
  refine ⟨fun s t h => ?_, fun s t hlow hs h => ?_⟩
  · simp only [exec, execClear, Host.Outcome.next.injEq] at h
    exact h ▸ s.zero_highNibblesZero
  · have invariant : IconMasksLow t.cfg ∧ t.HighNibblesZero :=
      step_keeps (P := fun s => IconMasksLow s.cfg ∧ s.HighNibblesZero)
        (fun _ _ hs => hs)
        (fun _ _ _ ⟨hlow, hs⟩ h => ⟨exec_cfg h ▸ hlow, exec_highNibblesZero hlow hs h⟩)
        s t ⟨hlow, hs⟩ h
    exact invariant.2

/-- Settles O3, by whether the index is inside the table. -/
theorem iconOperandIsTableEntry : Obligations.IconOperandIsTableEntry :=
  fun c i => ⟨iconOperand_isSome_iff c, iconOperand_map_entry c i⟩

/-- Settles O4, from the three checks of a configuration that exclude aliasing. -/
theorem tableAliasingExcluded : Obligations.TableAliasingExcluded := by
  refine fun c => ⟨fun p q hpq => ?_, fun i j b d hb hd => iconOperand_masks_disjoint c hb hd, fun i b p v hb => ?_⟩
  · obtain ⟨lolo, lohi, _, hihi⟩ := digit_cells_disjoint c hpq
    exact ⟨lolo, lohi, hihi⟩
  · exact ⟨fun hlo => iconOperand_segLo c hb hlo v, fun hhi => iconOperand_segHi c hb hhi v⟩

/-- Settles O13, from the pinned pattern of 9. -/
theorem digitNineWritesPinnedPattern : Obligations.DigitNineWritesPinnedPattern := by
  refine fun s p => ⟨s.stageDigit p 9, execSetDigit_inRange s p 9, ?_, ?_⟩
  · simp [State.stageDigit_cell, cellLo_ne_cellHi, segLo_nine]
  · simp [State.stageDigit_cell, segHi_nine]

/-- Settles O1: reset is a literal state, and `State.reset` is the one with the power-on content. -/
theorem resetLeavesTablesAndEmptyTrace : Obligations.ResetLeavesTablesAndEmptyTrace :=
  ⟨fun _ _ => ⟨rfl, fun _ => rfl, rfl, rfl⟩, powerOnBuffer, rfl⟩

/-- Settles O2, from the table reads as numbers. -/
theorem digitCellsAndBytes : Obligations.DigitCellsAndBytes :=
  fun c p v => ⟨cellLo_val c p, cellHi_val c p, segLo_toNat c v, segHi_toNat c v⟩

/-- Settles O43: nothing has been emitted at reset. -/
theorem resetTraceIsWhole : Obligations.ResetTraceIsWhole := by
  have whole (cfg : Configuration) (contents : Buffer) : (State.resetOf cfg contents).TraceWhole :=
    fun _ he => absurd he List.not_mem_nil
  exact ⟨whole _ _, whole⟩

end Sys2Proof.Proofs

/-! SUPPORT. The buffer and the order of operations (20_memory.md): what an operation emits and leaves unchanged, last
writes win, and runs as compositions of their operations. -/

namespace Sys2Proof.Machine

/-! ### What an operation emits and leaves unchanged -/

/-- The operations that commit (20_memory.md R52). -/
theorem commits_iff {i : Instr} : i.commits = true ↔ i = .init ∨ i = .update := by
  cases i <;> simp [Instr.commits]

/-- The state INIT leaves (40_lifecycle_ops.md R75). -/
theorem exec_init_next {s t : State} (h : exec .init s = .next t) :
    t = s.bringUp.zero.flush.emit (.cmd s.cfg.data.cmdBias) :=
  (Host.Outcome.next.inj h).symm

/-- The state CLEAR leaves (40_lifecycle_ops.md R78). -/
theorem exec_clear_next {s t : State} (h : exec .clear s = .next t) : t = s.zero :=
  (Host.Outcome.next.inj h).symm

/-- The state UPDATE leaves (40_lifecycle_ops.md R81). -/
theorem exec_update_next {s t : State} (h : exec .update s = .next t) : t = s.flush :=
  (Host.Outcome.next.inj h).symm

/-- No operation takes a word of the host's (log 6). -/
theorem exec_input {i : Instr} {s t : State} (h : exec i s = .next t) : t.input = s.input := by
  obtain ⟨_, rfl⟩ | ⟨_, rfl⟩ | ⟨_, rfl⟩ | ⟨_, _, _, rfl⟩ | ⟨_, _, _, _, _, rfl⟩ | ⟨rfl, _⟩ := exec_next h <;> rfl

/-- An operation that does not commit emits nothing (20_memory.md R52). -/
theorem exec_silent {i : Instr} {s t : State} (hi : i.commits = false) (h : exec i s = .next t) :
    t.trace = s.trace := by
  obtain ⟨rfl, _⟩ | ⟨_, rfl⟩ | ⟨rfl, _⟩ | ⟨_, _, _, rfl⟩ | ⟨_, _, _, _, _, rfl⟩ | ⟨rfl, _⟩ := exec_next h
  · cases hi
  · rfl
  · cases hi
  · rfl
  · rfl
  · rfl

/-- An operation that commits emits the whole buffer as it leaves it, and no write after that (20_memory.md R52). -/
theorem exec_commit {i : Instr} {s t : State} (hi : i.commits = true) (h : exec i s = .next t) :
    ∃ before after, t.trace = s.trace ++ (before ++ .write 0 27 t.buf.toList :: after) ∧
      displayImage after = none := by
  obtain rfl | rfl := commits_iff.mp hi
  · obtain rfl := exec_init_next h
    exact ⟨[.ctrlInit, .cmd s.cfg.data.cmdSysEn, .cmd s.cfg.data.cmdLcdOn], [.cmd s.cfg.data.cmdBias],
      by simp [State.bringUp_trace], rfl⟩
  · obtain rfl := exec_update_next h
    exact ⟨[], [], by simp, rfl⟩

/-- Every operation only appends to the trace (20_memory.md R51). -/
theorem exec_trace_append {i : Instr} {s t : State} (h : exec i s = .next t) :
    ∃ events, t.trace = s.trace ++ events := by
  cases hi : i.commits with
  | false => exact ⟨[], by simp [exec_silent hi h]⟩
  | true =>
    obtain ⟨before, after, htrace, _⟩ := exec_commit hi h
    exact ⟨_, htrace⟩

/-- The image of a trace whose last write is this one is its data (10_state.md R35). -/
theorem displayImage_lastWrite (es before : List Event) {after : List Event} (hafter : displayImage after = none)
    (start len : Nat) (data : List Byte) :
    displayImage (es ++ (before ++ .write start len data :: after)) = some data := by
  simp [displayImage_append, displayImage, hafter]

/-- A cell of no digit and no icon keeps its content, except under the two operations that zero the buffer
(20_memory.md R49). -/
theorem exec_cell_unowned {i : Instr} {s t : State} {c : CellIndex} (hc : Unowned s.cfg c) (hinit : i ≠ .init)
    (hclear : i ≠ .clear) (h : exec i s = .next t) : t.cell c = s.cell c := by
  obtain ⟨hdigits, hicons⟩ := hc
  obtain ⟨hi, _⟩ | ⟨hi, _⟩ | ⟨_, rfl⟩ | ⟨p, v, _, rfl⟩ | ⟨n, e, b, _, hb, rfl⟩ | ⟨rfl, _⟩ := exec_next h
  · exact absurd hi hinit
  · exact absurd hi hclear
  · rfl
  · obtain ⟨hlo, hhi⟩ := hdigits p
    rw [State.stageDigit_cell, if_neg hhi, if_neg hlo]
  · rw [State.setIconBit_cell, if_neg (hicons n b hb).symm]
  · rfl

/-! ### Last writes win -/

/-- Of two digits staged at one position the second wins. -/
@[simp] theorem State.stageDigit_stageDigit (s : State) (p : DigitPosition) (v w : DigitValue) :
    (s.stageDigit p v).stageDigit p w = s.stageDigit p w := by
  refine State.ext_cells rfl (fun c => ?_) rfl rfl
  simp only [State.stageDigit_cell, State.stageDigit_cfg]
  split_ifs <;> rfl

/-- Of two settings of one icon's bit the second wins. -/
@[simp] theorem State.setIconBit_setIconBit (s : State) (b : IconBit) (e f : Bool) :
    (s.setIconBit b e).setIconBit b f = s.setIconBit b f := by
  refine State.ext_cells rfl (fun c => BitVec.eq_of_getLsbD_eq fun k hk => ?_) rfl rfl
  simp only [State.setIconBit_getLsbD _ _ _ _ hk]
  split_ifs <;> rfl

/-- A staging operation done again changes nothing (20_memory.md R46). -/
theorem exec_idempotent {i : Instr} {s t : State} (hi : i.stages = true) (h : exec i s = .next t) :
    exec i t = .next t := by
  obtain ⟨rfl, _⟩ | ⟨rfl, rfl⟩ | ⟨rfl, _⟩ | ⟨p, v, rfl, rfl⟩ | ⟨n, e, b, rfl, hb, rfl⟩ | ⟨rfl, _⟩ := exec_next h
  · cases hi
  · rfl
  · cases hi
  · calc exec (.setDigit p.val v.val) (s.stageDigit p v)
        = .next ((s.stageDigit p v).stageDigit p v) := execSetDigit_inRange _ p v
      _ = .next (s.stageDigit p v) := by rw [State.stageDigit_stageDigit]
  · calc exec (.setIcon n e) (s.setIconBit b e)
        = .next ((s.setIconBit b e).setIconBit b e) := execSetIcon_icon (s.setIconBit b e) hb e
      _ = .next (s.setIconBit b e) := by rw [State.setIconBit_setIconBit]
  · exact h

/-! ### Runs as compositions -/

/-- Going on from the state an outcome holds; a fault or a refusal stays as it is. -/
def thenRun (o : Host.Outcome State Fault Refusal) (f : State → Host.Outcome State Fault Refusal) :
    Host.Outcome State Fault Refusal :=
  match o with
  | .next s => f s
  | .fault r => .fault r
  | .refused r => .refused r

section thenRun
variable (f g : State → Host.Outcome State Fault Refusal)

@[simp] theorem thenRun_next (s : State) : thenRun (.next s) f = f s := rfl

@[simp] theorem thenRun_fault (r : Fault) : thenRun (.fault r) f = .fault r := rfl

@[simp] theorem thenRun_refused (r : Refusal) : thenRun (.refused r) f = .refused r := rfl

/-- Stopping at the state an outcome holds is the outcome. -/
theorem thenRun_stop (o : Host.Outcome State Fault Refusal) : thenRun o .next = o := by
  cases o <;> rfl

theorem thenRun_assoc (o : Host.Outcome State Fault Refusal) :
    thenRun (thenRun o f) g = thenRun o fun s => thenRun (f s) g := by
  cases o <;> rfl

end thenRun

/-- A run does its first operation and goes on with the rest. -/
theorem runOps_cons (i : Instr) (is : List Instr) (s : State) :
    runOps (i :: is) s = thenRun (exec i s) (runOps is) := rfl

/-- Runs compose, left to right (20_memory.md R50). -/
theorem runOps_append (before after : List Instr) (s : State) :
    runOps (before ++ after) s = thenRun (runOps before s) (runOps after) := by
  induction before generalizing s with
  | nil => rfl
  | cons i is ih => rw [List.cons_append, runOps_cons, runOps_cons, thenRun_assoc, ← funext ih]

/-- A run of one operation is that operation (20_memory.md R50). -/
theorem runOps_singleton (i : Instr) (s : State) : runOps [i] s = exec i s :=
  (runOps_cons i [] s).trans (thenRun_stop _)

/-- An operation without effect has none on the rest of a run (60_exceptions.md R108). -/
theorem runOps_remove {i : Instr} (hi : ∀ s, exec i s = .next s) (before after : List Instr) (s : State) :
    runOps (before ++ i :: after) s = runOps (before ++ after) s := by
  have skip : runOps (i :: after) = runOps after := by
    funext u
    rw [runOps_cons, hi, thenRun_next]
  rw [runOps_append, runOps_append, skip]

/-- What every operation of a kind keeps, every run of operations of that kind keeps. -/
theorem runOps_keeps_of {P : State → Prop} {kind : Instr → Prop}
    (hexec : ∀ i s t, kind i → P s → exec i s = .next t → P t) {ops : List Instr} {s t : State}
    (hops : ∀ i ∈ ops, kind i) (hs : P s) (h : runOps ops s = .next t) : P t := by
  induction ops generalizing s with
  | nil =>
    cases h
    exact hs
  | cons i is ih =>
    obtain ⟨u, hu, h⟩ := runOps_cons_next h
    obtain ⟨hi, his⟩ := List.forall_mem_cons.mp hops
    exact ih his (hexec i s u hi hs hu) h

/-! ### The host's words -/

/-- An operation neither reads nor changes the host's words: with others in their place it does the same
(30_encoding.md R59; log 6). -/
theorem exec_withInput (i : Instr) (s : State) (words : List Word) :
    exec i { s with input := words } = thenRun (exec i s) fun t => .next { t with input := words } := by
  cases i with
  | setDigit p v =>
    simp only [exec, execSetDigit]
    cases digitOperands p v <;> rfl
  | setIcon n e =>
    simp only [exec, execSetIcon]
    cases iconOperand s.cfg n <;> rfl
  | init | clear | update | reservedOpc0 | reservedOpc67 | reservedOpc8F | reservedIcon => rfl

/-- The machine's run of `k` steps, at the model's own types. -/
def runSteps (k : Nat) (s : State) : Host.Outcome State Fault Refusal := Host.Core.run core k s

/-- A run of steps does the first one and goes on with the others. -/
theorem runSteps_succ (k : Nat) (s : State) : runSteps (k + 1) s = thenRun (step s) (runSteps k) := by
  cases h : step s <;> simp [runSteps, Host.Core.run, core, h]

/-- As many steps as words presented are the run of the operations the words decode to (92_eei_decisions.md D1). -/
theorem runSteps_words (words : List Word) (s : State) :
    runSteps words.length { s with input := words } =
      runOps (words.map (decode s.cfg.data.nIcons)) { s with input := [] } := by
  induction words generalizing s with
  | nil => rfl
  | cons w rest ih =>
    have hstep : step { s with input := w :: rest } = exec (decode s.cfg.data.nIcons w) { s with input := rest } :=
      step_cons rfl
    rw [List.length_cons, runSteps_succ, hstep, List.map_cons, runOps_cons, exec_withInput _ s rest,
      exec_withInput _ s []]
    cases h : exec (decode s.cfg.data.nIcons w) s with
    | next t =>
      simp only [thenRun_next]
      rw [ih t, exec_cfg h]
    | fault r => rfl
    | refused r => rfl

end Sys2Proof.Machine

/-! SUPPORT. The statements of 20_memory.md settled. -/

namespace Sys2Proof.Proofs

open Sys2Proof.Machine

/-- Settles O22, field by field. -/
theorem operationsKeepTablesAndPastEvents : Obligations.OperationsKeepTablesAndPastEvents :=
  fun _ _ _ h => ⟨exec_cfg h, exec_input h, exec_trace_append h⟩

/-- Settles O23: the write of a commit is the last one of the trace. -/
theorem onlyCommitsReachTheTransport : Obligations.OnlyCommitsReachTheTransport := by
  refine fun i s t h => ⟨commits_iff, fun hi => ?_, fun hi => exec_silent hi h⟩
  obtain ⟨before, after, htrace, hafter⟩ := exec_commit hi h
  refine ⟨?_, _, htrace, by simp⟩
  rw [htrace, displayImage_lastWrite _ _ hafter]

/-- Settles O24: a run without a commit keeps the whole trace, hence its image. -/
theorem stagedChangesAreInvisible : Obligations.StagedChangesAreInvisible := by
  intro ops s t hops h
  have htrace : t.trace = s.trace :=
    runOps_keeps_of (P := fun u => u.trace = s.trace) (fun _ _ _ hi hu h => (exec_silent hi h).trans hu) hops rfl h
  rw [htrace]

/-- Settles O25; the second UPDATE flushes the buffer the first one left as it was. -/
theorem stagingIsIdempotent : Obligations.StagingIsIdempotent := by
  refine ⟨fun i s t hi h => exec_idempotent hi h, fun s t u ht hu => ?_⟩
  obtain rfl := exec_update_next ht
  obtain rfl := exec_update_next hu
  exact ⟨rfl, by simp⟩

/-- Settles O26, by whether the operation zeroes the buffer. -/
theorem unownedCellsChangeOnlyByZeroing : Obligations.UnownedCellsChangeOnlyByZeroing := by
  intro i s t c hc h
  split_ifs with hi
  · obtain rfl | rfl := hi
    · simp [exec_init_next h]
    · simp [exec_clear_next h]
  · obtain ⟨hinit, hclear⟩ := not_or.mp hi
    exact exec_cell_unowned hc hinit hclear h

/-- Settles O28: each ignored operation is the identity on every state, and runs compose. -/
theorem ignoredOperationsHaveNoInfluence : Obligations.IgnoredOperationsHaveNoInfluence := by
  refine ⟨fun before after i s hi => runOps_remove (fun u => ?_) before after s, runOps_singleton,
    fun before after s t h => by rw [runOps_append, h, thenRun_next]⟩
  obtain ⟨p, v, rfl, hrange⟩ | ⟨_, rfl⟩ | ⟨_, rfl⟩ | ⟨_, rfl⟩ | ⟨_, _, _, rfl⟩ := hi
  · have hnone : digitOperands p v = none := digitOperands_outOfRange (by omega)
    simp [exec, execSetDigit, hnone]
  · rfl
  · rfl
  · rfl
  · rfl

/-- Settles O41: the words not yet presented make no difference to an operation. -/
theorem wordRunIsOperationRun : Obligations.WordRunIsOperationRun :=
  fun s => runSteps_words s.input s

end Sys2Proof.Proofs

/-! SUPPORT. The command word (30_encoding.md): its fields as numbers, the words its fields determine, the rows of the
opcode map by opcode, and the assembler on a line of one operation. -/

namespace Sys2Proof

/-! ### Fields as numbers -/

section fields
variable (w : Word)

@[simp] theorem fieldOpc_toNat : (fieldOpc w).toNat = w.toNat / 4096 := by
  have lt : w.toNat < 65536 := w.isLt
  simp only [fieldOpc, BitVec.extractLsb'_toNat, Nat.shiftRight_eq_div_pow]
  omega

@[simp] theorem fieldPos_toNat : (fieldPos w).toNat = w.toNat / 256 % 16 := by
  simp [fieldPos, Nat.shiftRight_eq_div_pow]

@[simp] theorem fieldVal_toNat : (fieldVal w).toNat = w.toNat % 256 := by
  simp [fieldVal]

@[simp] theorem fieldIcon_toNat : (fieldIcon w).toNat = w.toNat % 256 := by
  simp [fieldIcon]

@[simp] theorem fieldIgnored_toNat : (fieldIgnored w).toNat = w.toNat / 512 % 8 := by
  simp [fieldIgnored, Nat.shiftRight_eq_div_pow]

theorem fieldEn_eq_decide : fieldEn w = decide (w.toNat / 256 % 2 = 1) := by
  simp [fieldEn, BitVec.getLsbD, Nat.testBit_eq_decide_div_mod_eq]

/-- An opcode is the number in its field. -/
theorem fieldOpc_eq_iff {o : BitVec 4} : fieldOpc w = o ↔ w.toNat / 4096 = o.toNat := by
  rw [← BitVec.toNat_inj, fieldOpc_toNat]

theorem le_fieldOpc_iff {o : BitVec 4} : o ≤ fieldOpc w ↔ o.toNat ≤ w.toNat / 4096 := by
  rw [BitVec.le_def, fieldOpc_toNat]

end fields

/-- The opcodes, grouped as the decoder groups them (30_encoding.md R63, R66). -/
theorem opcode_cases (o : BitVec 4) :
    o = 0#4 ∨ o = 1#4 ∨ o = 2#4 ∨ o = 3#4 ∨ o = 4#4 ∨ o = 5#4 ∨ (o = 6#4 ∨ o = 7#4) ∨ 8#4 ≤ o := by
  revert o
  decide

/-- Format P: opcode, position and value are the whole word (30_encoding.md R60). -/
theorem word_eq_of_formatP {w z : Word} (hopc : fieldOpc w = fieldOpc z) (hpos : fieldPos w = fieldPos z)
    (hval : fieldVal w = fieldVal z) : w = z := by
  simp only [← BitVec.toNat_inj, fieldOpc_toNat, fieldPos_toNat, fieldVal_toNat] at *
  omega

/-- Format I: opcode, ignored bits, flag and icon are the whole word (30_encoding.md R60). -/
theorem word_eq_of_formatI {w z : Word} (hopc : fieldOpc w = fieldOpc z) (hignored : fieldIgnored w = fieldIgnored z)
    (hen : fieldEn w = fieldEn z) (hicon : fieldIcon w = fieldIcon z) : w = z := by
  simp only [← BitVec.toNat_inj, fieldOpc_toNat, fieldIgnored_toNat, fieldIcon_toNat] at *
  simp only [fieldEn_eq_decide, decide_eq_decide] at hen
  omega

/-- A word is its bits from `k` on and the `k` bits below. -/
theorem word_eq_of_high_low {w z : Word} (k : Nat) (high : w.toNat / 2 ^ k = z.toNat / 2 ^ k)
    (low : w.extractLsb' 0 k = z.extractLsb' 0 k) : w = z := by
  have low : w.toNat % 2 ^ k = z.toNat % 2 ^ k := by simpa [← BitVec.toNat_inj] using low
  apply BitVec.eq_of_toNat_eq
  rw [← Nat.div_add_mod w.toNat (2 ^ k), high, low, Nat.div_add_mod]

/-! ### Canonical words -/

/-- The canonical word of SET_ICON is that of RESERVED.ICON with the ignored bits zero (30_encoding.md R65). -/
theorem encode_setIcon_eq_reservedIcon (y : Byte) (e : Bool) :
    encode (.setIcon y.toNat e) = encode (.reservedIcon 0#3 e y) := by
  simp [encode, BitVec.ofNat_toNat]

/-- Clearing the ignored bits of format I leaves the other fields (30_encoding.md R65). -/
theorem clearIgnored_fields (w : Word) :
    let z := w &&& 0xF1FF#16
    fieldOpc z = fieldOpc w ∧ fieldIgnored z = 0#3 ∧ fieldEn z = fieldEn w ∧ fieldIcon z = fieldIcon w := by
  refine ⟨?_, ?_, ?_, ?_⟩
  · apply BitVec.eq_of_getLsbD_eq; intro k hk; interval_cases k <;> simp [fieldOpc]
  · apply BitVec.eq_of_getLsbD_eq; intro k hk; interval_cases k <;> simp [fieldIgnored]
  · simp [fieldEn]
  · apply BitVec.eq_of_getLsbD_eq; intro k hk; interval_cases k <;> simp [fieldIcon]

/-- A word under the icon mask is its icon field. -/
theorem and_iconMask_toNat (w : Word) : (w &&& 0x00FF#16).toNat = (fieldIcon w).toNat := by
  rw [fieldIcon_toNat, BitVec.toNat_and]
  exact Nat.and_two_pow_sub_one_eq_mod w.toNat 8

/-- A word under the opcode mask tells the opcode (30_encoding.md R64). -/
theorem and_opcodeMask_eq_iff (w : Word) (o : BitVec 4) :
    w &&& 0xF000#16 = o.setWidth 16 <<< 12 ↔ fieldOpc w = o := by
  rw [opcode_and_mask]
  generalize fieldOpc w = x
  revert x o
  decide

section canonical
variable {n : Nat} {w : Word}

/-- A word of format Z loses its ignored bits (30_encoding.md R65). -/
theorem encode_decode_formatZ (h : fieldOpc w = 1#4 ∨ fieldOpc w = 2#4 ∨ fieldOpc w = 3#4) :
    encode (decode n w) = w &&& 0xF000#16 := by
  rw [opcode_and_mask]
  rcases h with h | h | h
  · rw [decode_opc1 h, h]; rfl
  · rw [decode_opc2 h, h]; rfl
  · rw [decode_opc3 h, h]; rfl

/-- A word of format I that names an icon loses its ignored bits (30_encoding.md R65). -/
theorem encode_decode_iconNamed (h : fieldOpc w = 5#4) (hn : (fieldIcon w).toNat < n) :
    encode (decode n w) = w &&& 0xF1FF#16 := by
  rw [decode_opc5 h, if_pos hn, encode_setIcon_eq_reservedIcon]
  obtain ⟨hopc, hign, hen, hicon⟩ := encode_reservedIcon_fields 0#3 (fieldEn w) (fieldIcon w)
  obtain ⟨hopc', hign', hen', hicon'⟩ := clearIgnored_fields w
  exact word_eq_of_formatI (by rw [hopc, hopc', h]) (by rw [hign, hign']) (by rw [hen, hen']) (by rw [hicon, hicon'])

/-- Every other word comes back whole (30_encoding.md R65; for the reserved ones log 11). -/
theorem encode_decode_whole (hZ : ¬(fieldOpc w = 1#4 ∨ fieldOpc w = 2#4 ∨ fieldOpc w = 3#4))
    (hI : ¬(fieldOpc w = 5#4 ∧ (fieldIcon w).toNat < n)) : encode (decode n w) = w := by
  have lt : w.toNat < 65536 := w.isLt
  obtain ⟨opc0, opc67, opc8F⟩ :=
    encode_reserved_fields (w.extractLsb' 0 12) (w.extractLsb' 0 13) (w.extractLsb' 0 15)
  obtain h | h | h | h | h | h | h | h := opcode_cases (fieldOpc w)
  · obtain ⟨hopc, hrest⟩ := opc0
    rw [decode_opc0 h]
    refine word_eq_of_high_low 12 ?_ hrest
    rw [fieldOpc_eq_iff] at h hopc
    omega
  · exact absurd (.inl h) hZ
  · exact absurd (.inr (.inl h)) hZ
  · exact absurd (.inr (.inr h)) hZ
  · rw [decode_opc4 h]
    obtain ⟨hopc, hpos, hval⟩ := encode_setDigit_fields (fieldPos w) (fieldVal w)
    exact word_eq_of_formatP (hopc.trans h.symm) hpos hval
  · rw [decode_opc5 h, if_neg fun hn => hI ⟨h, hn⟩]
    obtain ⟨hopc, hign, hen, hicon⟩ := encode_reservedIcon_fields (fieldIgnored w) (fieldEn w) (fieldIcon w)
    exact word_eq_of_formatI (hopc.trans h.symm) hign hen hicon
  · obtain ⟨hopc, hrest⟩ := opc67
    rw [decode_opc67 h]
    refine word_eq_of_high_low 13 ?_ hrest
    simp only [fieldOpc_eq_iff, BitVec.toNat_ofNat] at h hopc
    omega
  · obtain ⟨hopc, hrest⟩ := opc8F
    rw [decode_opc8F h]
    refine word_eq_of_high_low 15 ?_ hrest
    have lt' := (encode (.reservedOpc8F (w.extractLsb' 0 15))).isLt
    simp only [le_fieldOpc_iff, BitVec.toNat_ofNat] at h hopc
    omega

end canonical

/-- The canonical word of SET_ICON has its ignored bits zero (30_encoding.md R65). -/
theorem encode_setIcon_ignored (y : Byte) (e : Bool) : encode (.setIcon y.toNat e) &&& 0x0E00#16 = 0#16 := by
  apply BitVec.eq_of_getLsbD_eq; intro k hk; interval_cases k <;> cases e <;> simp [encode]

/-- Words of format Z with the same opcode decode alike (30_encoding.md R65). -/
theorem decode_congr_formatZ {n : Nat} {w z : Word} (hsame : w.toNat / 4096 = z.toNat / 4096)
    (hopc : w.toNat / 4096 ∈ [1, 2, 3]) : decode n w = decode n z := by
  have hsame : fieldOpc w = fieldOpc z := by rw [fieldOpc_eq_iff, hsame, fieldOpc_toNat]
  have hopc : fieldOpc w = 1#4 ∨ fieldOpc w = 2#4 ∨ fieldOpc w = 3#4 := by
    simpa [fieldOpc_eq_iff] using hopc
  rcases hopc with h | h | h
  · rw [decode_opc1 h, decode_opc1 (hsame ▸ h)]
  · rw [decode_opc2 h, decode_opc2 (hsame ▸ h)]
  · rw [decode_opc3 h, decode_opc3 (hsame ▸ h)]

/-! ### The opcode map -/

/-- Whether a row is selected, from the opcode and from whether the `ICON` field names an icon. -/
def OpcodeRow.selectsOpcode (r : OpcodeRow) (opc : BitVec 4) (named : Bool) : Bool :=
  (opc.setWidth 16 <<< 12 &&& r.mask == r.pattern) &&
    match r.condition with
    | .always => true
    | .iconNamed => named
    | .iconUnnamed => !named

/-- The masks of the opcode map lie in the opcode field. -/
theorem opcodeRows_mask : ∀ r ∈ opcodeRows, 0xF000#16 &&& r.mask = r.mask := by
  decide

/-- A word selects a row by its opcode and by whether its `ICON` field names an icon, and by nothing else
(30_encoding.md R64). -/
theorem selects_eq_selectsOpcode {r : OpcodeRow} (hr : r ∈ opcodeRows) (n : Nat) (w : Word) :
    r.selects n w = r.selectsOpcode (fieldOpc w) (decide ((fieldIcon w).toNat < n)) := by
  have hmask : w &&& r.mask = (fieldOpc w).setWidth 16 <<< 12 &&& r.mask := by
    rw [← opcode_and_mask, BitVec.and_assoc, opcodeRows_mask r hr]
  have hunnamed : decide (n ≤ (fieldIcon w).toNat) = !decide ((fieldIcon w).toNat < n) := by
    rw [← decide_not]
    exact decide_eq_decide.mpr not_lt.symm
  unfold OpcodeRow.selects OpcodeRow.selectsOpcode
  rw [hmask]
  cases r.condition with
  | always => rfl
  | iconNamed => rfl
  | iconUnnamed => exact congrArg _ hunnamed

/-- The mnemonics of the rows that an opcode selects, given whether the `ICON` field names an icon. -/
def rowsOfOpcode (opc : BitVec 4) (named : Bool) : List String :=
  (opcodeRows.filter fun r => r.selectsOpcode opc named).map (·.mnemonic)

/-- The rows a word selects are those of its opcode. -/
theorem selectedRows_eq_rowsOfOpcode (n : Nat) (w : Word) :
    (opcodeRows.filter fun r => r.selects n w).map (·.mnemonic) =
      rowsOfOpcode (fieldOpc w) (decide ((fieldIcon w).toNat < n)) := by
  rw [rowsOfOpcode, List.filter_congr fun r hr => selects_eq_selectsOpcode hr n w]

/-- The rows of the opcodes below 8: for each opcode one (30_encoding.md R63). -/
theorem rowsOfOpcode_below8 : ∀ named : Bool,
    rowsOfOpcode 0#4 named = ["RESERVED.OPC0"] ∧ rowsOfOpcode 1#4 named = ["INIT"] ∧
    rowsOfOpcode 2#4 named = ["CLEAR"] ∧ rowsOfOpcode 3#4 named = ["UPDATE"] ∧
    rowsOfOpcode 4#4 named = ["SET_DIGIT"] ∧
    rowsOfOpcode 5#4 named = [if named then "SET_ICON" else "RESERVED.ICON"] ∧
    rowsOfOpcode 6#4 named = ["RESERVED.OPC6_7"] ∧ rowsOfOpcode 7#4 named = ["RESERVED.OPC6_7"] := by
  decide

/-- The row of the opcodes from 8 on. -/
theorem rowsOfOpcode_8F : ∀ opc : BitVec 4, 8#4 ≤ opc → ∀ named, rowsOfOpcode opc named = ["RESERVED.OPC8_F"] := by
  decide

/-- An opcode, with its icon test, selects the one row of the decoded operation (30_encoding.md R63, R64). -/
theorem rowsOfOpcode_decode (n : Nat) (w : Word) :
    rowsOfOpcode (fieldOpc w) (decide ((fieldIcon w).toNat < n)) = [(decode n w).mnemonic] := by
  obtain ⟨row0, row1, row2, row3, row4, row5, row6, row7⟩ :=
    rowsOfOpcode_below8 (decide ((fieldIcon w).toNat < n))
  obtain h | h | h | h | h | h | (h | h) | h := opcode_cases (fieldOpc w)
  · rw [decode_opc0 h, h, row0]; rfl
  · rw [decode_opc1 h, h, row1]; rfl
  · rw [decode_opc2 h, h, row2]; rfl
  · rw [decode_opc3 h, h, row3]; rfl
  · rw [decode_opc4 h, h, row4]; rfl
  · rw [decode_opc5 h, h, row5]
    by_cases hn : (fieldIcon w).toNat < n
    · rw [decide_eq_true hn, if_pos hn]; rfl
    · rw [decide_eq_false hn, if_neg hn]; rfl
  · rw [decode_opc67 (.inl h), h, row6]; rfl
  · rw [decode_opc67 (.inr h), h, row7]; rfl
  · rw [decode_opc8F h, rowsOfOpcode_8F _ h]; rfl

end Sys2Proof

namespace Sys2Proof.Machine

/-! ### What an operation reads -/

/-- An operation without effect on one state has none on any (41_set_digit.md R85, 60_exceptions.md R102). -/
theorem exec_ignored {i : Instr}
    (hi : (∃ p v, i = .setDigit p v ∧ digitOperands p v = none) ∨ (∃ r, i = .reservedOpc0 r) ∨
      (∃ r, i = .reservedOpc67 r) ∨ (∃ r, i = .reservedOpc8F r) ∨ (∃ x e n, i = .reservedIcon x e n))
    (s : State) : exec i s = .next s := by
  obtain ⟨p, v, rfl, hnone⟩ | ⟨_, rfl⟩ | ⟨_, rfl⟩ | ⟨_, rfl⟩ | ⟨_, _, _, rfl⟩ := hi
  · simp only [exec, execSetDigit, hnone]
  · rfl
  · rfl
  · rfl
  · rfl

/-- An operation appends the same events and leaves the same buffer whatever trace stands before it
(30_encoding.md R73). -/
theorem exec_withTrace {i : Instr} {s t : State} (h : exec i s = .next t) :
    ∃ events, t.trace = s.trace ++ events ∧
      ∀ past, exec i { s with trace := past } = .next { t with trace := past ++ events } := by
  obtain ⟨rfl, rfl⟩ | ⟨rfl, rfl⟩ | ⟨rfl, rfl⟩ | ⟨p, v, rfl, rfl⟩ | ⟨n, e, b, rfl, hb, rfl⟩ | ⟨rfl, hi⟩ := exec_next h
  · refine ⟨[.ctrlInit, .cmd s.cfg.data.cmdSysEn, .cmd s.cfg.data.cmdLcdOn, .write 0 27 zeroBuffer.toList,
      .cmd s.cfg.data.cmdBias], by simp [State.bringUp_trace], fun past => congrArg Host.Outcome.next ?_⟩
    exact State.ext_fields rfl rfl (by simp [State.bringUp_trace]) rfl
  · exact ⟨[], by simp, fun past => by rw [List.append_nil]; rfl⟩
  · refine ⟨[.write 0 27 s.buf.toList], by simp, fun past => congrArg Host.Outcome.next ?_⟩
    exact State.ext_fields rfl rfl (by simp) rfl
  · refine ⟨[], by simp, fun past => ?_⟩
    rw [List.append_nil]
    exact execSetDigit_inRange { s with trace := past } p v
  · refine ⟨[], by simp, fun past => ?_⟩
    rw [List.append_nil]
    exact execSetIcon_icon { s with trace := past } hb e
  · exact ⟨[], by simp, fun past => by rw [List.append_nil]; exact exec_ignored hi _⟩

/-! ### The assembler -/

/-- A line of a mnemonic alone. -/
theorem lexLine_mnemonic {m : List Char} (hm : m.all isWordChar = true) (hne : m ≠ []) :
    lexLine m [] = .ok [.word m] := by
  have h := lexLine_word m [] [] hm
  rw [List.append_nil] at h
  simp [h, lexLine, withWord, hne]

/-- A line of a mnemonic and two operands. -/
theorem lexLine_twoOperands {m a b : List Char} (hm : m.all isWordChar = true ∧ m ≠ [])
    (ha : a.all isWordChar = true ∧ a ≠ []) (hb : b.all isWordChar = true ∧ b ≠ []) :
    lexLine (m ++ " ".toList ++ a ++ ", ".toList ++ b) [] = .ok [.word m, .word a, .comma, .word b] := by
  have hend : lexLine b [] = .ok [.word b] := lexLine_mnemonic hb.1 hb.2
  have hcomma : lexLine (a ++ ',' :: ' ' :: b) [] = .ok [.word a, .comma, .word b] := by
    rw [lexLine_word _ _ _ ha.1, lexLine_comma, lexLine_space, hend]
    simp [Except.map, withWord, ha.2]
  have hline : m ++ " ".toList ++ a ++ ", ".toList ++ b = m ++ ' ' :: (a ++ ',' :: ' ' :: b) := by simp
  rw [hline, lexLine_word _ _ _ hm.1, lexLine_space, hcomma]
  simp [Except.map, withWord, hm.2]

/-- A line of a mnemonic and two operands is read as that operation on these operand words. -/
theorem assembleLine_twoOperands (c : Config) (names : List (List Char × Nat)) {m a b : List Char} {op : AsmOp}
    (hop : opOfMnemonic m = some op) (hm : m.all isWordChar = true ∧ m ≠ []) (ha : a.all isWordChar = true ∧ a ≠ [])
    (hb : b.all isWordChar = true ∧ b ≠ []) :
    assembleLine c names (m ++ " ".toList ++ a ++ ", ".toList ++ b) = (assembleOp c names op [a, b]).map some := by
  rw [assembleLine, lexLine_twoOperands hm ha hb]
  simp only [assembleTokens, hop]
  rfl

/-- A numeral is one word. -/
theorem showNumeral_word {k : Nat} (hk : k < 256) :
    (showNumeral k).all isWordChar = true ∧ showNumeral k ≠ [] :=
  ⟨(numeral_showNumeral k hk).1, (numeral_showNumeral k hk).2.1⟩

/-- A numeral is read back. -/
theorem numeral_showNumeral_eq {k : Nat} (hk : k < 256) : numeral (showNumeral k) = some k :=
  (numeral_showNumeral k hk).2.2

/-- A flag is read back. -/
theorem flagWord_show (e : Bool) : flagWord (if e then ['1'] else ['0']) = some e := by
  cases e <;> rfl

/-- A numeral is a position operand when it is at most 15, a value operand when it is at most 255. -/
theorem assembleOp_setDigit (c : Config) (names : List (List Char × Nat)) {p v : Nat} (hp : p ≤ 15) (hv : v ≤ 255) :
    assembleOp c names .setDigit [showNumeral p, showNumeral v] = .ok (.setDigit p v) := by
  have hp' : numeral (showNumeral p) = some p := numeral_showNumeral_eq (by omega)
  have hv' : numeral (showNumeral v) = some v := numeral_showNumeral_eq (by omega)
  simp [assembleOp, hp', hv', hp, hv, Option.filter_some]

/-- A numeral is an icon operand when it names an icon. -/
theorem assembleOp_setIcon (c : Config) (names : List (List Char × Nat)) {k : Nat} (hk : k < 256)
    (hn : k < c.nIcons) (e : Bool) :
    assembleOp c names .setIcon [showNumeral k, if e then ['1'] else ['0']] = .ok (.setIcon k e) := by
  have hk' : numeral (showNumeral k) = some k := numeral_showNumeral_eq hk
  simp [assembleOp, iconWord, hk', hn, flagWord_show, Option.filter_some]

end Sys2Proof.Machine

/-! SUPPORT. The statements of 30_encoding.md settled. -/

namespace Sys2Proof.Proofs

open Sys2Proof.Machine

/-- Settles O30, by the fields of the encoded word. -/
theorem decodeOfEncodeIsIdentity : Obligations.DecodeOfEncodeIsIdentity := by
  intro nIcons hn i hi
  cases i with
  | init => rfl
  | clear => rfl
  | update => rfl
  | setDigit p v =>
    obtain ⟨x, y, rfl, rfl⟩ := wf_setDigit_fields hi
    obtain ⟨hopc, hpos, hval⟩ := encode_setDigit_fields x y
    rw [decode_opc4 hopc, hpos, hval]
  | setIcon k e =>
    obtain ⟨y, rfl, hy⟩ := wf_setIcon_field hn hi
    obtain ⟨hopc, hicon, hen⟩ := encode_setIcon_fields y e
    rw [decode_opc5 hopc, hicon, hen, if_pos hy]
  | reservedOpc0 r =>
    obtain ⟨⟨hopc, hrest⟩, _, _⟩ := encode_reserved_fields r 0 0
    rw [decode_opc0 hopc, hrest]
  | reservedOpc67 r =>
    obtain ⟨_, ⟨hopc, hrest⟩, _⟩ := encode_reserved_fields 0 r 0
    rw [decode_opc67 hopc, hrest]
  | reservedOpc8F r =>
    obtain ⟨_, _, hopc, hrest⟩ := encode_reserved_fields 0 0 r
    rw [decode_opc8F hopc, hrest]
  | reservedIcon x e y =>
    have hy : ¬y.toNat < nIcons := not_lt.mpr (of_decide_eq_true hi)
    obtain ⟨hopc, hign, hen, hicon⟩ := encode_reservedIcon_fields x e y
    rw [decode_opc5 hopc, hign, hen, hicon, if_neg hy]

/-- Settles O27: the second state is the first one with another trace and other words. -/
theorem traceAndInputAreNotRead : Obligations.TraceAndInputAreNotRead := by
  intro i s₁ s₂ t₁ hcfg hbuf h
  obtain ⟨events, htrace, hpast⟩ := exec_withTrace h
  have hs₂ : s₂ = { ({ s₁ with trace := s₂.trace } : State) with input := s₂.input } :=
    State.ext_fields hcfg.symm hbuf.symm rfl rfl
  refine ⟨{ t₁ with trace := s₂.trace ++ events, input := s₂.input }, events, ?_, rfl, rfl, htrace, rfl⟩
  rw [hs₂, exec_withInput, hpast]
  rfl

/-- Settles O31, by the three kinds of words. -/
theorem encodeOfDecodeIsCanonical : Obligations.EncodeOfDecodeIsCanonical := by
  intro nIcons w
  have opc1 : w &&& 0xF000#16 = 0x1000#16 ↔ fieldOpc w = 1#4 := and_opcodeMask_eq_iff w 1#4
  have opc2 : w &&& 0xF000#16 = 0x2000#16 ↔ fieldOpc w = 2#4 := and_opcodeMask_eq_iff w 2#4
  have opc3 : w &&& 0xF000#16 = 0x3000#16 ↔ fieldOpc w = 3#4 := and_opcodeMask_eq_iff w 3#4
  have opc5 : w &&& 0xF000#16 = 0x5000#16 ↔ fieldOpc w = 5#4 := and_opcodeMask_eq_iff w 5#4
  simp only [opc1, opc2, opc3, opc5, and_iconMask_toNat]
  split_ifs with hZ hI
  · exact encode_decode_formatZ hZ
  · exact encode_decode_iconNamed hI.1 hI.2
  · exact encode_decode_whole hZ hI

/-- Settles O21: the meaning of a reserved word is the state itself. -/
theorem reservedWordsAreNoOps : Obligations.ReservedWordsAreNoOps :=
  fun _ => ⟨fun _ => rfl, fun _ => rfl, fun _ => rfl, fun _ _ _ => rfl⟩

/-- Settles O32: the opcode as a number picks the row, the fields as numbers are the operands. -/
theorem decodeFollowsTheFields : Obligations.DecodeFollowsTheFields := by
  intro nIcons w
  refine ⟨fun h => decode_opc1 ((fieldOpc_eq_iff w).mpr h), fun h => decode_opc2 ((fieldOpc_eq_iff w).mpr h),
    fun h => decode_opc3 ((fieldOpc_eq_iff w).mpr h), fun h => ?_, fun h hn => ?_, fun h s => ?_⟩
  · rw [decode_opc4 ((fieldOpc_eq_iff w).mpr h), fieldPos_toNat, fieldVal_toNat]
  · rw [decode_opc5 ((fieldOpc_eq_iff w).mpr h), fieldIcon_toNat, if_pos hn, fieldEn_eq_decide]
  · obtain ⟨noOp0, noOp67, noOp8F, noOpIcon⟩ := reservedWordsAreNoOps s
    have lt : w.toNat < 65536 := w.isLt
    have hopc : fieldOpc w = 0#4 ∨ (fieldOpc w = 6#4 ∨ fieldOpc w = 7#4) ∨ 8#4 ≤ fieldOpc w ∨
        (fieldOpc w = 5#4 ∧ ¬(fieldIcon w).toNat < nIcons) := by
      simp only [fieldOpc_eq_iff, le_fieldOpc_iff, fieldIcon_toNat, BitVec.toNat_ofNat]
      omega
    obtain h | h | h | ⟨h, hn⟩ := hopc
    · rw [decode_opc0 h, noOp0]
    · rw [decode_opc67 h, noOp67]
    · rw [decode_opc8F h, noOp8F]
    · rw [decode_opc5 h, if_neg hn, noOpIcon]

/-- Settles O33: the two words have the same opcode and, in format I, the same flag and icon. -/
theorem ignoredBitsDoNotSelect : Obligations.IgnoredBitsDoNotSelect := by
  refine ⟨⟨rfl, rfl, rfl, encode_setIcon_ignored⟩, fun nIcons w z h => ?_⟩
  obtain ⟨hsame, hopc⟩ | ⟨hopc, hz, hlow⟩ := h
  · rw [decode_congr_formatZ hsame hopc]
    exact ⟨rfl, fun _ => rfl⟩
  · have hw : fieldOpc w = 5#4 := (fieldOpc_eq_iff w).mpr hopc
    have hz : fieldOpc z = 5#4 := (fieldOpc_eq_iff z).mpr hz
    have hicon : fieldIcon w = fieldIcon z := by
      simp only [← BitVec.toNat_inj, fieldIcon_toNat]
      omega
    have hen : fieldEn w = fieldEn z := by
      simp only [fieldEn_eq_decide, decide_eq_decide]
      omega
    rw [decode_opc5 hw, decode_opc5 hz, hicon, hen]
    split_ifs with hn
    · exact ⟨rfl, fun _ => rfl⟩
    · refine ⟨rfl, fun h => ?_⟩
      rw [← hicon, fieldIcon_toNat] at hn
      omega

/-- Settles O34: the rows of a word are those of its opcode. -/
theorem everyWordSelectsOneRow : Obligations.EveryWordSelectsOneRow :=
  fun nIcons w => (selectedRows_eq_rowsOfOpcode nIcons w).trans (rowsOfOpcode_decode nIcons w)

/-- Settles O35, by opcode. -/
theorem decodedOperationIsWellFormed : Obligations.DecodedOperationIsWellFormed := by
  intro nIcons w
  obtain h | h | h | h | h | h | h | h := opcode_cases (fieldOpc w)
  · rw [decode_opc0 h]; rfl
  · rw [decode_opc1 h]; rfl
  · rw [decode_opc2 h]; rfl
  · rw [decode_opc3 h]; rfl
  · have hpos : (fieldPos w).toNat < 16 := (fieldPos w).isLt
    have hval : (fieldVal w).toNat < 256 := (fieldVal w).isLt
    rw [decode_opc4 h]
    simp only [Instr.wf, Bool.and_eq_true, decide_eq_true_eq]
    omega
  · rw [decode_opc5 h]
    split_ifs with hn
    · exact decide_eq_true hn
    · exact decide_eq_true (not_lt.mp hn)
  · rw [decode_opc67 h]; rfl
  · rw [decode_opc8F h]; rfl

/-- Settles O37, by the tokens of the line. -/
theorem assemblerReadsWhatItShows : Obligations.AssemblerReadsWhatItShows := by
  intro c names i line hi hline
  cases i with
  | init | clear | update =>
    cases hline
    rfl
  | setDigit p v =>
    obtain ⟨x, y, rfl, rfl⟩ := wf_setDigit_fields hi
    have hx : x.toNat < 16 := x.isLt
    have hy : y.toNat < 256 := y.isLt
    cases hline
    exact (assembleLine_twoOperands c.data names (m := "SET_DIGIT".toList) rfl (by decide)
      (showNumeral_word (by omega)) (showNumeral_word hy)).trans
        (congrArg _ (assembleOp_setDigit c.data names (by omega) (by omega)))
  | setIcon k e =>
    obtain ⟨⟨_, hicons⟩, _⟩ := c.wf
    have hn : k < c.data.nIcons := of_decide_eq_true hi
    have hk : k < 256 := by omega
    cases hline
    exact (assembleLine_twoOperands c.data names (m := "SET_ICON".toList) rfl (by decide)
      (showNumeral_word hk) (by cases e <;> decide)).trans
        (congrArg _ (assembleOp_setIcon c.data names hk hn e))
  | reservedOpc0 | reservedOpc67 | reservedOpc8F | reservedIcon => cases hline

/-- Settles O39, by the round trip of the word. -/
theorem stepRunsTheEncodedOperation : Obligations.StepRunsTheEncodedOperation := by
  intro s i rest hi hinput
  obtain ⟨⟨_, hicons⟩, _⟩ := s.cfg.wf
  rw [step_cons hinput, decodeOfEncodeIsIdentity s.cfg.data.nIcons hicons i hi]

/-- Settles O36, by evaluation of the thirteen words. -/
theorem sampleWordsDecode : Obligations.SampleWordsDecode := by
  unfold Obligations.SampleWordsDecode
  decide

/-- Settles O38, by whether a word is presented. -/
theorem stepRunsTheDecodedWord : Obligations.StepRunsTheDecodedWord :=
  ⟨fun _ _ _ => step_cons, fun _ => step_nil⟩

end Sys2Proof.Proofs

/-! SUPPORT. INIT, CLEAR and UPDATE (40_lifecycle_ops.md): the events an operation appends, what zeroing forgets, and
the picture a buffer shows after every operation. -/

namespace Sys2Proof.Machine

/-! ### The events of an operation -/

/-- The five events of INIT, in order (40_lifecycle_ops.md R75). -/
def initEvents (c : Configuration) : List Event :=
  [.ctrlInit, .cmd c.data.cmdSysEn, .cmd c.data.cmdLcdOn, .write 0 27 (List.replicate 27 0#8), .cmd c.data.cmdBias]

/-- INIT from every state: the buffer zeroed, its five events appended, nothing else (40_lifecycle_ops.md R75, R76). -/
theorem exec_init (s : State) :
    exec .init s = .next { s with buf := zeroBuffer, trace := s.trace ++ initEvents s.cfg } := by
  refine congrArg Host.Outcome.next (State.ext_fields rfl rfl ?_ rfl)
  simp [State.bringUp_trace, zeroBuffer, initEvents]

/-- What an operation appends to the trace: INIT its five events, UPDATE one whole-buffer write, every other operation
nothing (20_memory.md R51, R52). -/
theorem exec_trace_cases {i : Instr} {s t : State} (h : exec i s = .next t) :
    (i = .init ∧ t.trace = s.trace ++ initEvents s.cfg) ∨
    (i = .update ∧ t.trace = s.trace ++ [.write 0 27 s.buf.toList]) ∨
    t.trace = s.trace := by
  cases hi : i.commits with
  | false => exact .inr (.inr (exec_silent hi h))
  | true =>
    obtain rfl | rfl := commits_iff.mp hi
    · rw [exec_init] at h
      cases h
      exact .inl ⟨rfl, rfl⟩
    · obtain rfl := exec_update_next h
      exact .inr (.inl ⟨rfl, s.flush_trace⟩)

/-- Every event of INIT is one the block may emit (40_lifecycle_ops.md R82). -/
theorem initEvents_whole (c : Configuration) : ∀ e ∈ initEvents c, wholeEvent c e := by
  simp [initEvents, wholeEvent]

/-- A whole trace stays whole when whole events are appended under the same tables. -/
theorem State.TraceWhole.append {s t : State} (hs : s.TraceWhole) {events : List Event} (hcfg : t.cfg = s.cfg)
    (htrace : t.trace = s.trace ++ events) (hevents : ∀ e ∈ events, wholeEvent s.cfg e) : t.TraceWhole := by
  intro e he
  rw [hcfg]
  rw [htrace, List.mem_append] at he
  exact he.elim (hs e) (hevents e)

/-- Every operation keeps the trace whole (40_lifecycle_ops.md R82). -/
theorem exec_traceWhole {i : Instr} {s t : State} (hs : s.TraceWhole) (h : exec i s = .next t) : t.TraceWhole := by
  obtain ⟨_, htrace⟩ | ⟨_, htrace⟩ | htrace := exec_trace_cases h
  · exact hs.append (exec_cfg h) htrace (initEvents_whole s.cfg)
  · exact hs.append (exec_cfg h) htrace (by simp [wholeEvent])
  · exact hs.append (events := []) (exec_cfg h) (by simpa using htrace) (by simp)

/-- From `s` to `t` nothing but whole-buffer writes has been emitted. -/
def OnlyWritesSince (s t : State) : Prop :=
  ∃ writes, t.trace = s.trace ++ writes ∧ ∀ e ∈ writes, ∃ data, e = .write 0 27 data

/-- An operation other than INIT adds at most another write (40_lifecycle_ops.md R77, R81). -/
theorem OnlyWritesSince.after_exec {i : Instr} {s u t : State} (hu : OnlyWritesSince s u) (hi : i ≠ .init)
    (h : exec i u = .next t) : OnlyWritesSince s t := by
  obtain ⟨writes, htrace, hwrites⟩ := hu
  obtain ⟨hinit, _⟩ | ⟨_, hw⟩ | hw := exec_trace_cases h
  · exact absurd hinit hi
  · refine ⟨writes ++ [.write 0 27 u.buf.toList], by rw [hw, htrace, List.append_assoc], fun e he => ?_⟩
    obtain he | he := List.mem_append.mp he
    · exact hwrites e he
    · exact ⟨_, List.mem_singleton.mp he⟩
  · exact ⟨writes, hw.trans htrace, hwrites⟩

/-- A run without INIT emits only whole-buffer writes (40_lifecycle_ops.md R77). -/
theorem runOps_onlyWrites {ops : List Instr} {s t : State} (hops : .init ∉ ops) (h : runOps ops s = .next t) :
    OnlyWritesSince s t :=
  runOps_keeps_of (P := OnlyWritesSince s) (kind := (· ≠ .init)) (fun _ _ _ hi hu h => hu.after_exec hi h)
    (fun _ hi => ne_of_mem_of_not_mem hi hops) ⟨[], by simp, by simp⟩ h

/-! ### What zeroing forgets -/

/-- An operation that stages commits nothing (20_memory.md R52). -/
theorem commits_of_stages {i : Instr} (hi : i.stages = true) : i.commits = false := by
  cases i with
  | clear | setDigit | setIcon => rfl
  | init | update | reservedOpc0 | reservedOpc67 | reservedOpc8F | reservedIcon => cases hi

/-- An operation that does not commit changes the buffer alone, so zeroing the buffer forgets it
(40_lifecycle_ops.md R80). -/
theorem exec_zero {i : Instr} {s t : State} (hi : i.commits = false) (h : exec i s = .next t) : t.zero = s.zero :=
  State.ext_fields (exec_cfg h :) rfl (exec_silent hi h :) (exec_input h :)

/-! ### The cells of a digit in a picture -/

/-- A cell is one of the two of a position. -/
def ownsCell (c : Configuration) (p : DigitPosition) (d : CellIndex) : Prop := d = cellLo c p ∨ d = cellHi c p

/-- Bit `k` of cell `d` is a segment of digit `v` at position `p` (20_memory.md R39). -/
def segmentAt (c : Configuration) (p : DigitPosition) (v : DigitValue) (d : CellIndex) (k : Nat) : Prop :=
  (d = cellLo c p ∧ (segLo c v).getLsbD k = true) ∨ (d = cellHi c p ∧ (segHi c v).getLsbD k = true)

section picture
variable {c : Configuration} {pic : Picture} {p q : DigitPosition} {v : DigitValue} {d : CellIndex} {k : Nat}

/-- A bit is lit by a segment of a digit shown or by an icon shown. -/
theorem Picture.lit_iff : pic.lit c d k ↔ (∃ p v, pic.digits[p] = some v ∧ segmentAt c p v d k) ∨
    ∃ i b, i ∈ pic.icons ∧ iconOperand c i = some b ∧ b.cell = d ∧ b.mask.getLsbD k = true := Iff.rfl

/-- A cell belongs to at most one position (10_state.md R26). -/
theorem ownsCell_unique (hp : ownsCell c p d) (hq : ownsCell c q d) : p = q := by
  by_contra hpq
  obtain ⟨lolo, lohi, hilo, hihi⟩ := digit_cells_disjoint c hpq
  obtain rfl | rfl := hp
  · exact hq.elim lolo lohi
  · exact hq.elim hilo hihi

/-- The segments of a digit lie in the cells of its position. -/
theorem segmentAt.owns (h : segmentAt c p v d k) : ownsCell c p d := h.imp And.left And.left

/-- The icons of a position's cells, in terms of the icon's own cell. -/
theorem iconInDigit_iff {i : Nat} {b : IconBit} (hb : iconOperand c i = some b) :
    iconInDigit c i p = true ↔ ownsCell c p b.cell := by
  simp [iconInDigit, hb, ownsCell]

/-- What staging a digit does to a bit of its own cells (41_set_digit.md R88). -/
theorem State.stageDigit_getLsbD_owned {s : State} (hd : ownsCell s.cfg p d) :
    ((s.stageDigit p v).cell d).getLsbD k = true ↔ segmentAt s.cfg p v d k := by
  rw [State.stageDigit_cell]
  obtain rfl | rfl := hd
  · simp [segmentAt, cellLo_ne_cellHi]
  · simp [segmentAt, (cellLo_ne_cellHi s.cfg p).symm]

/-- Staging a digit leaves the other cells alone (41_set_digit.md R88). -/
theorem State.stageDigit_cell_of_not_owned {s : State} (hd : ¬ ownsCell s.cfg p d) :
    (s.stageDigit p v).cell d = s.cell d := by
  obtain ⟨hlo, hhi⟩ := not_or.mp hd
  rw [State.stageDigit_cell, if_neg hhi, if_neg hlo]

/-- A digit set, operands in range, takes its position and puts out the icons of its cells. -/
theorem Picture.apply_setDigit :
    pic.apply c (.setDigit p.val v.val) =
      { digits := pic.digits.set p (some v), icons := pic.icons.filter fun i => !iconInDigit c i p } := by
  simp [Picture.apply]

/-- The digit shown at a position after one is set. -/
theorem Picture.digits_set (w : DigitValue) :
    (pic.digits.set p (some v))[q] = some w ↔ (q = p ∧ w = v) ∨ (q ≠ p ∧ pic.digits[q] = some w) := by
  by_cases hq : q = p
  · subst hq
    simp [eq_comm]
  · have hne : p.val ≠ q.val := fun e => hq (Fin.ext e.symm)
    simp [hq, hne]

/-- In the cells of a digit just set exactly its segments are lit (41_set_digit.md R87). -/
theorem Picture.lit_setDigit_owned (hd : ownsCell c p d) :
    (pic.apply c (.setDigit p.val v.val)).lit c d k ↔ segmentAt c p v d k := by
  simp only [Picture.apply_setDigit, Picture.lit_iff, Picture.digits_set]
  constructor
  · rintro (⟨q, w, ⟨rfl, rfl⟩ | ⟨hq, _⟩, hseg⟩ | ⟨i, b, hi, hb, rfl, _⟩)
    · exact hseg
    · exact absurd (ownsCell_unique hseg.owns hd) hq
    · simp [(iconInDigit_iff hb).mpr hd] at hi
  · exact fun hseg => .inl ⟨p, v, .inl ⟨rfl, rfl⟩, hseg⟩

/-- In the other cells nothing changes (41_set_digit.md R88). -/
theorem Picture.lit_setDigit_not_owned (hd : ¬ ownsCell c p d) :
    (pic.apply c (.setDigit p.val v.val)).lit c d k ↔ pic.lit c d k := by
  simp only [Picture.apply_setDigit, Picture.lit_iff, Picture.digits_set, List.mem_filter]
  refine or_congr ⟨?_, ?_⟩ ⟨?_, ?_⟩
  · rintro ⟨q, w, ⟨rfl, rfl⟩ | ⟨_, hw⟩, hseg⟩
    · exact absurd hseg.owns hd
    · exact ⟨q, w, hw, hseg⟩
  · rintro ⟨q, w, hw, hseg⟩
    exact ⟨q, w, .inr ⟨fun hq => hd (hq ▸ hseg.owns), hw⟩, hseg⟩
  · rintro ⟨i, b, ⟨hi, _⟩, hbit⟩
    exact ⟨i, b, hi, hbit⟩
  · rintro ⟨i, b, hi, hb, rfl, hk⟩
    refine ⟨i, b, ⟨hi, ?_⟩, hb, rfl, hk⟩
    simpa [← iconInDigit_iff hb] using hd

/-! ### The bit of an icon in a picture -/

section icon
variable {i j : Nat} {a b : IconBit}

/-- Two bytes without a common bit are not both set at one. -/
theorem not_both_of_and_zero {x y : Byte} (h : x &&& y = 0#8) (hx : x.getLsbD k = true) : y.getLsbD k ≠ true := by
  intro hy
  have hk := congrArg (BitVec.getLsbD · k) h
  simp [hx, hy] at hk

/-- A bit is that of at most one icon (10_state.md R29). -/
theorem iconBit_unique (ha : iconOperand c j = some a) (hb : iconOperand c i = some b) (hcell : a.cell = b.cell)
    (hka : a.mask.getLsbD k = true) (hkb : b.mask.getLsbD k = true) : j = i := by
  by_contra hji
  exact not_both_of_and_zero (iconOperand_masks_disjoint c ha hb hji hcell) hka hkb

/-- An icon's bit is no segment of a digit (10_state.md R31). -/
theorem not_segmentAt_iconBit (hb : iconOperand c i = some b) (hk : b.mask.getLsbD k = true) :
    ¬ segmentAt c p v b.cell k := by
  rintro (⟨hlo, hseg⟩ | ⟨hhi, hseg⟩)
  · exact not_both_of_and_zero (iconOperand_segLo c hb hlo v) hk hseg
  · exact not_both_of_and_zero (iconOperand_segHi c hb hhi v) hk hseg

/-- An icon's bit is lit exactly when the icon is shown. -/
theorem Picture.lit_iconBit (hb : iconOperand c i = some b) (hk : b.mask.getLsbD k = true) :
    pic.lit c b.cell k ↔ i ∈ pic.icons := by
  rw [Picture.lit_iff]
  constructor
  · rintro (⟨p, v, _, hseg⟩ | ⟨j, a, hj, ha, hcell, hka⟩)
    · exact absurd hseg (not_segmentAt_iconBit hb hk)
    · exact iconBit_unique ha hb hcell hka hk ▸ hj
  · exact fun hi => .inr ⟨i, b, hi, hb, rfl, hk⟩

/-- Setting an icon shows it or puts it out. -/
theorem Picture.mem_icons_setIcon {e : Bool} :
    j ∈ (pic.apply c (.setIcon i e)).icons ↔ if j = i then e = true else j ∈ pic.icons := by
  by_cases hj : j = i <;> cases e <;> simp [Picture.apply, hj]

/-- Setting an icon changes no bit but the icon's (42_set_icon.md R95). -/
theorem Picture.lit_setIcon_of_not_iconBit (hb : iconOperand c i = some b) (e : Bool)
    (hd : ¬ (d = b.cell ∧ b.mask.getLsbD k = true)) :
    (pic.apply c (.setIcon i e)).lit c d k ↔ pic.lit c d k := by
  simp only [Picture.lit_iff, Picture.mem_icons_setIcon]
  refine or_congr Iff.rfl (exists_congr fun j => exists_congr fun a => and_congr_left fun ⟨ha, hcell, hk⟩ => ?_)
  rw [if_neg]
  rintro rfl
  obtain rfl : a = b := Option.some.inj (ha.symm.trans hb)
  exact hd ⟨hcell.symm, hk⟩

end icon

end picture

/-! ### The picture a buffer shows -/

/-- A buffer of zeros shows the blank picture. -/
theorem State.shows_blank {s : State} (hs : ∀ d, s.cell d = 0#8) : s.Shows Picture.blank := by
  intro d k _
  rw [hs d, Picture.lit_iff]
  simp [Picture.blank]

/-- A digit staged is a digit set in the picture (41_set_digit.md R87, R88). -/
theorem State.Shows.stageDigit {s : State} {pic : Picture} (hs : s.Shows pic) (p : DigitPosition) (v : DigitValue) :
    (s.stageDigit p v).Shows (pic.apply s.cfg (.setDigit p.val v.val)) := by
  intro d k hk
  rw [State.stageDigit_cfg]
  by_cases hd : ownsCell s.cfg p d
  · rw [State.stageDigit_getLsbD_owned hd, Picture.lit_setDigit_owned hd]
  · rw [State.stageDigit_cell_of_not_owned hd, Picture.lit_setDigit_not_owned hd]
    exact hs d k hk

/-- An icon's bit set or cleared is the icon shown or put out in the picture (42_set_icon.md R95, R99). -/
theorem State.Shows.setIconBit {s : State} {pic : Picture} (hs : s.Shows pic) {i : Nat} {b : IconBit}
    (hb : iconOperand s.cfg i = some b) (e : Bool) :
    (s.setIconBit b e).Shows (pic.apply s.cfg (.setIcon i e)) := by
  intro d k hk
  rw [State.setIconBit_cfg, State.setIconBit_getLsbD _ _ _ _ hk]
  by_cases hd : d = b.cell ∧ b.mask.getLsbD k = true
  · obtain ⟨rfl, hmask⟩ := hd
    rw [Picture.lit_iconBit hb hmask, Picture.mem_icons_setIcon, if_pos rfl, if_pos ⟨rfl, hmask⟩]
  · rw [if_neg hd, Picture.lit_setIcon_of_not_iconBit hb e hd]
    exact hs d k hk

/-- An ignored operation does nothing to the picture (41_set_digit.md R85, 60_exceptions.md R102). -/
theorem Picture.apply_ignored {i : Instr}
    (hi : (∃ p v, i = .setDigit p v ∧ digitOperands p v = none) ∨ (∃ r, i = .reservedOpc0 r) ∨
      (∃ r, i = .reservedOpc67 r) ∨ (∃ r, i = .reservedOpc8F r) ∨ (∃ x e n, i = .reservedIcon x e n))
    (c : Configuration) (pic : Picture) : pic.apply c i = pic := by
  obtain ⟨p, v, rfl, hnone⟩ | ⟨_, rfl⟩ | ⟨_, rfl⟩ | ⟨_, rfl⟩ | ⟨_, _, _, rfl⟩ := hi
  · simp only [Picture.apply, hnone]
  · rfl
  · rfl
  · rfl
  · rfl

/-- Every operation leaves a buffer that shows the picture with that operation done to it. -/
theorem exec_shows {i : Instr} {s t : State} {pic : Picture} (hs : s.Shows pic) (h : exec i s = .next t) :
    t.Shows (pic.apply s.cfg i) := by
  obtain ⟨rfl, rfl⟩ | ⟨rfl, rfl⟩ | ⟨rfl, rfl⟩ | ⟨p, v, rfl, rfl⟩ | ⟨n, e, b, rfl, hb, rfl⟩ | ⟨rfl, hi⟩ := exec_next h
  · exact State.shows_blank s.bringUp.zero_cell
  · exact State.shows_blank s.zero_cell
  · exact hs
  · exact hs.stageDigit p v
  · exact hs.setIconBit hb e
  · rw [Picture.apply_ignored hi]
    exact hs

/-- Every run of operations leaves a buffer that shows the picture with those operations done to it, in order. -/
theorem runOps_shows {ops : List Instr} {s t : State} {pic : Picture} (hs : s.Shows pic) (h : runOps ops s = .next t) :
    t.Shows (ops.foldl (Picture.apply s.cfg) pic) := by
  induction ops generalizing s pic with
  | nil =>
    cases h
    exact hs
  | cons i is ih =>
    obtain ⟨u, hu, h⟩ := runOps_cons_next h
    rw [List.foldl_cons, ← exec_cfg hu]
    exact ih (exec_cfg hu ▸ exec_shows hs hu) h

end Sys2Proof.Machine

/-! SUPPORT. The statements of 40_lifecycle_ops.md settled. -/

namespace Sys2Proof.Proofs

open Sys2Proof.Machine

/-- Settles O42: what an operation appends to the trace is whole. -/
theorem stepKeepsTraceWhole : Obligations.StepKeepsTraceWhole :=
  ⟨fun _ _ _ => exec_traceWhole, step_keeps (fun _ _ hs => hs) fun _ _ _ => exec_traceWhole⟩

/-- Settles O6; a run without INIT never emits `T_CTRL_INIT`, which INIT does. -/
theorem initIsBringUpClearUpdateBias : Obligations.InitIsBringUpClearUpdateBias := by
  refine ⟨fun s t h => ?_, fun ops s t hops h => ⟨runOps_onlyWrites hops h, fun hinit => ?_⟩⟩
  · have hrun : runOps [.clear, .update] s.bringUp = .next s.bringUp.zero.flush := rfl
    obtain rfl : s.bringUp.zero.flush = t := Host.Outcome.next.inj (hrun.symm.trans h)
    rfl
  · obtain ⟨writes, htrace, hwrites⟩ := runOps_onlyWrites hops h
    rw [exec_init] at hinit
    cases hinit
    have hevents : initEvents s.cfg = writes := List.append_cancel_left htrace
    obtain ⟨data, hdata⟩ := hwrites .ctrlInit (hevents ▸ List.mem_cons_self)
    cases hdata

/-- Settles O8: the run changes the buffer alone, and CLEAR zeroes it. -/
theorem clearAbsorbsStaging : Obligations.ClearAbsorbsStaging := by
  intro ops s t hops h
  have hzero : t.zero = s.zero :=
    runOps_keeps_of (P := fun u => u.zero = s.zero)
      (fun _ _ _ hi hu h => (exec_zero (commits_of_stages hi) h).trans hu) hops rfl h
  exact congrArg Host.Outcome.next hzero

/-- Settles O46: the first operation blanks the picture, and every further one refines it. -/
theorem runsShowTheirPicture : Obligations.RunsShowTheirPicture := by
  intro first ops s t hfirst h
  obtain ⟨u, hu, h⟩ := runOps_cons_next h
  have hblank : u.Shows Picture.blank := by
    obtain rfl | rfl := hfirst
    · exact exec_init_next hu ▸ State.shows_blank s.bringUp.zero_cell
    · exact exec_clear_next hu ▸ State.shows_blank s.zero_cell
  exact exec_cfg hu ▸ runOps_shows hblank h

/-- Settles O5, field by field. -/
theorem initZeroesBufferAndEmitsFiveEvents : Obligations.InitZeroesBufferAndEmitsFiveEvents := exec_init

/-- Settles O7, from what zeroing does to a container. -/
theorem clearZeroesBufferSilently : Obligations.ClearZeroesBufferSilently :=
  fun s => ⟨s.zero, rfl, s.zero_cell, rfl, rfl, rfl⟩

/-- Settles O9: the data of the flush is the buffer in ascending order, and the last write of the trace. -/
theorem updateSendsWholeBuffer : Obligations.UpdateSendsWholeBuffer := by
  refine fun s => ⟨s.flush, s.buf.toList, rfl, s.flush_trace, s.buf.length_toList, fun k => ?_, s.flush_cell, rfl,
    rfl, ?_⟩
  · simp [State.cell]
  · simp [displayImage_append, displayImage]

end Sys2Proof.Proofs

/-! SUPPORT. SET_DIGIT (41_set_digit.md): the answer of exec for operands in range and out of range, the digit and the
icons read back after it, and its order with the other staging operations. -/

namespace Sys2Proof.Machine

/-! ### The answer of SET_DIGIT -/

/-- SET_DIGIT with operands in range stages the digit (41_set_digit.md R84). -/
theorem exec_setDigit (s : State) (p : DigitPosition) (v : DigitValue) :
    exec (.setDigit p.val v.val) s = .next (s.stageDigit p v) :=
  execSetDigit_inRange s p v

/-- SET_DIGIT with an operand out of range is ignored (41_set_digit.md R85). -/
theorem exec_setDigit_outOfRange (s : State) {position value : Int}
    (h : position < 0 ∨ 9 ≤ position ∨ value < 0 ∨ 15 < value) : exec (.setDigit position value) s = .next s :=
  exec_ignored (.inl ⟨position, value, rfl, digitOperands_outOfRange h⟩) s

/-- SET_ICON of an icon sets or clears its bit (42_set_icon.md R93). -/
theorem exec_setIcon {s : State} {i : Nat} {b : IconBit} (hb : iconOperand s.cfg i = some b) (e : Bool) :
    exec (.setIcon i e) s = .next (s.setIconBit b e) :=
  execSetIcon_icon s hb e

/-- A run of two operations is the second one from where the first leads. -/
theorem runOps_pair {i j : Instr} {s t : State} (h : exec i s = .next t) : runOps [i, j] s = exec j t := by
  rw [runOps_cons, h, thenRun_next, runOps_singleton]

/-! ### What a digit staged shows -/

section stageDigit
variable (s : State) (p : DigitPosition) (v : DigitValue)

/-- The first cell holds the lower byte of the pattern. -/
@[simp] theorem State.stageDigit_cellLo : (s.stageDigit p v).cell (cellLo s.cfg p) = segLo s.cfg v := by
  simp [State.stageDigit_cell, cellLo_ne_cellHi]

/-- The second cell holds the upper byte of the pattern. -/
@[simp] theorem State.stageDigit_cellHi : (s.stageDigit p v).cell (cellHi s.cfg p) = segHi s.cfg v := by
  simp [State.stageDigit_cell]

/-- Staging a digit is the overwrite of its two cells: the inverted nibbles are overwritten (41_set_digit.md R86). -/
theorem State.stageDigit_eq_overwrite :
    s.stageDigit p v = (s.setCell (cellLo s.cfg p) (segLo s.cfg v)).setCell (cellHi s.cfg p) (segHi s.cfg v) :=
  State.ext_cells rfl (fun d => by simp only [State.stageDigit_cell, State.setCell_cell]) rfl rfl

/-- The digit staged is the digit read back (41_set_digit.md R88). -/
@[simp] theorem State.readDigit_stageDigit_same : (s.stageDigit p v).readDigit p = segPattern s.cfg v := by
  simp [State.readDigit, joinBytes_seg]

end stageDigit

section stageDigit_frame
variable {s : State} {p q : DigitPosition} {v w : DigitValue}

/-- Every other digit reads as before (41_set_digit.md R88). -/
theorem State.readDigit_stageDigit_ne (hqp : q ≠ p) : (s.stageDigit p v).readDigit q = s.readDigit q := by
  have hlo : ¬ ownsCell s.cfg p (cellLo s.cfg q) := fun h => hqp (ownsCell_unique (.inl rfl) h)
  have hhi : ¬ ownsCell s.cfg p (cellHi s.cfg q) := fun h => hqp (ownsCell_unique (.inr rfl) h)
  simp only [State.readDigit, State.stageDigit_cfg, State.stageDigit_cell_of_not_owned hlo,
    State.stageDigit_cell_of_not_owned hhi]

/-- An icon in one of the digit's cells is off: its bit is no segment bit (41_set_digit.md R87, 10_state.md R31). -/
theorem State.iconOn_stageDigit_owned {i : Nat} {b : IconBit} (hb : iconOperand s.cfg i = some b)
    (hd : ownsCell s.cfg p b.cell) : (s.stageDigit p v).iconOn b = false := by
  have hclear : (s.stageDigit p v).cell b.cell &&& b.mask = 0#8 := by
    obtain hlo | hhi := hd
    · rw [hlo, State.stageDigit_cellLo, BitVec.and_comm, iconOperand_segLo _ hb hlo]
    · rw [hhi, State.stageDigit_cellHi, BitVec.and_comm, iconOperand_segHi _ hb hhi]
  simp [State.iconOn, hclear]

/-- Any other icon is as before (41_set_digit.md R88). -/
theorem State.iconOn_stageDigit_of_not_owned {b : IconBit} (hd : ¬ ownsCell s.cfg p b.cell) :
    (s.stageDigit p v).iconOn b = s.iconOn b := by
  rw [State.iconOn, State.stageDigit_cell_of_not_owned hd, State.iconOn]

/-- An icon switched on is on: its mask has a bit (42_set_icon.md R95, 10_state.md R28). -/
theorem State.iconOn_setIconBit_true {i : Nat} {b : IconBit} (hb : iconOperand s.cfg i = some b) :
    (s.setIconBit b true).iconOn b = true := by
  have hset : (s.setIconBit b true).cell b.cell &&& b.mask = b.mask := by
    refine BitVec.eq_of_getLsbD_eq fun k hk => ?_
    rw [BitVec.getLsbD_and, State.setIconBit_getLsbD _ _ _ _ hk]
    cases b.mask.getLsbD k <;> simp
  have hmask : b.mask ≠ 0#8 := fun h => absurd (h ▸ iconOperand_oneHot _ hb) (by decide)
  simp [State.iconOn, hset, hmask]

/-! ### The order of staging operations -/

/-- What staging a digit leaves in a cell depends on the tables and that cell alone. -/
theorem State.stageDigit_cell_congr {t : State} {d : CellIndex} (hcfg : s.cfg = t.cfg) (hd : s.cell d = t.cell d) :
    (s.stageDigit p v).cell d = (t.stageDigit p v).cell d := by
  rw [State.stageDigit_cell, State.stageDigit_cell, hcfg, hd]

/-- In a cell that one of two digits does not own, their order makes no difference. -/
theorem State.stageDigit_comm_cell {d : CellIndex} (hd : ¬ ownsCell s.cfg q d) :
    ((s.stageDigit p v).stageDigit q w).cell d = ((s.stageDigit q w).stageDigit p v).cell d :=
  calc ((s.stageDigit p v).stageDigit q w).cell d
      = (s.stageDigit p v).cell d := State.stageDigit_cell_of_not_owned (s := s.stageDigit p v) hd
    _ = ((s.stageDigit q w).stageDigit p v).cell d :=
      State.stageDigit_cell_congr rfl (State.stageDigit_cell_of_not_owned hd).symm

/-- Digits of different positions are staged in either order (41_set_digit.md R91). -/
theorem State.stageDigit_comm (hpq : p ≠ q) :
    (s.stageDigit p v).stageDigit q w = (s.stageDigit q w).stageDigit p v := by
  refine State.ext_cells rfl (fun d => ?_) rfl rfl
  by_cases hp : ownsCell s.cfg p d
  · exact State.stageDigit_comm_cell fun hq => hpq (ownsCell_unique hp hq)
  · exact (State.stageDigit_comm_cell hp).symm

/-- A digit and an icon outside its cells are staged in either order (41_set_digit.md R91). -/
theorem State.stageDigit_setIconBit_comm {b : IconBit} (e : Bool) (hb : ¬ ownsCell s.cfg p b.cell) :
    (s.stageDigit p v).setIconBit b e = (s.setIconBit b e).stageDigit p v := by
  refine State.ext_cells rfl (fun d => ?_) rfl rfl
  by_cases hd : d = b.cell
  · subst hd
    rw [State.stageDigit_cell_of_not_owned (s := s.setIconBit b e) hb, State.setIconBit_cell, State.setIconBit_cell,
      State.stageDigit_cell_of_not_owned hb]
  · rw [State.setIconBit_cell, if_neg hd]
    exact State.stageDigit_cell_congr rfl (by rw [State.setIconBit_cell, if_neg hd])

end stageDigit_frame

end Sys2Proof.Machine

/-! SUPPORT. The statements of 41_set_digit.md settled. -/

namespace Sys2Proof.Proofs

open Sys2Proof.Machine

/-- Settles O45, by what each operation does to the picture. -/
theorem operationsRefineThePicture : Obligations.OperationsRefineThePicture :=
  fun _ _ _ _ => exec_shows

/-- Settles O10: the overwrite hides the inversion, and writing a cell changes the buffer alone. -/
theorem setDigitIsDirectOverwrite : Obligations.SetDigitIsDirectOverwrite := by
  intro s p v
  rw [exec_setDigit, State.stageDigit_eq_overwrite]
  rfl

/-- Settles O12: the frame clauses follow from which cells the position owns. -/
theorem setDigitReadsBackAndKeepsTheRest : Obligations.SetDigitReadsBackAndKeepsTheRest := by
  refine ⟨fun s p v => ⟨s.stageDigit p v, exec_setDigit s p v, s.readDigit_stageDigit_same p v,
    fun c hlo hhi => State.stageDigit_cell_of_not_owned (not_or.mpr ⟨hlo, hhi⟩),
    fun q hqp => State.readDigit_stageDigit_ne hqp, fun i b hb => ?_⟩,
    fun s position value h => ⟨s, exec_setDigit_outOfRange s (by omega), fun _ => rfl⟩⟩
  split_ifs with hd
  · exact State.iconOn_stageDigit_owned hb hd
  · exact State.iconOn_stageDigit_of_not_owned hd

/-- Settles O14: each clause is an equation between staged states, or the icon read back after the second operation. -/
theorem digitsLastWriteWinsAndReorder : Obligations.DigitsLastWriteWinsAndReorder := by
  refine ⟨fun s p v w => ?_, fun s p q v w hpq => ?_, fun s p v i b e hb hlo hhi => ?_, fun s p v i b hb hd => ?_⟩
  · rw [runOps_pair (exec_setDigit s p v), exec_setDigit, State.stageDigit_stageDigit, exec_setDigit]
  · rw [runOps_pair (exec_setDigit s p v), runOps_pair (exec_setDigit s q w), exec_setDigit, exec_setDigit,
      State.stageDigit_comm hpq]
  · rw [runOps_pair (exec_setDigit s p v), runOps_pair (exec_setIcon hb e),
      exec_setIcon (s := s.stageDigit p v) hb, exec_setDigit,
      State.stageDigit_setIconBit_comm e (not_or.mpr ⟨hlo, hhi⟩)]
  · exact ⟨(s.setIconBit b true).stageDigit p v, (s.stageDigit p v).setIconBit b true,
      (runOps_pair (exec_setIcon hb true)).trans (exec_setDigit _ p v),
      State.iconOn_stageDigit_owned (s := s.setIconBit b true) hb hd,
      (runOps_pair (exec_setDigit s p v)).trans (exec_setIcon (s := s.stageDigit p v) hb true),
      State.iconOn_setIconBit_true (s := s.stageDigit p v) hb⟩

/-- Settles O15: the digit's cells hold its bytes, and every other cell is as CLEAR left it. -/
theorem clearThenDigitShowsOnlyThatDigit : Obligations.ClearThenDigitShowsOnlyThatDigit := by
  intro s p v
  have hclear : exec .clear s = .next s.zero := rfl
  refine ⟨s.zero.stageDigit p v, (runOps_pair hclear).trans (exec_setDigit _ p v), s.zero.stageDigit_cellLo p v,
    s.zero.stageDigit_cellHi p v, s.zero.readDigit_stageDigit_same p v, fun c hlo hhi => ?_⟩
  calc (s.zero.stageDigit p v).cell c
      = s.zero.cell c := State.stageDigit_cell_of_not_owned (s := s.zero) (not_or.mpr ⟨hlo, hhi⟩)
    _ = 0#8 := s.zero_cell c

/-- Settles O11, by the range test on the operands. -/
theorem setDigitOutOfRangeIsSilent : Obligations.SetDigitOutOfRangeIsSilent :=
  fun s _ _ => exec_setDigit_outOfRange s

end Sys2Proof.Proofs

/-! SUPPORT. SET_ICON (42_set_icon.md): the answer of exec for an index that names no icon, and what setting an icon's
bit does to the bits of its container and leaves alone. -/

namespace Sys2Proof.Machine

/-! ### The answer of SET_ICON -/

/-- SET_ICON of an index without an operand is refused by name (log 9). -/
theorem exec_setIcon_none {s : State} {i : Nat} (hi : iconOperand s.cfg i = none) (e : Bool) :
    exec (.setIcon i e) s = .refused (.iconNotInEnumeration i) := by
  rw [exec, execSetIcon, hi]

/-! ### The bits of a container after an icon's bit is set -/

/-- A one-bit mask is a shifted 1 (10_state.md R28). -/
theorem oneHot_eq_shift :
    ∀ m ∈ [0x01#8, 0x02#8, 0x04#8, 0x08#8, 0x10#8, 0x20#8, 0x40#8, 0x80#8], ∃ k < 8, m = 1#8 <<< k := by
  decide

section setIconBit
variable (s : State) (b : IconBit) (e : Bool)

/-- Setting an icon's bit changes the buffer alone, by OR or by AND with the complement (42_set_icon.md R93). -/
theorem State.setIconBit_eq_buf_set : s.setIconBit b e = { s with
    buf := s.buf.set b.cell (if e then s.cell b.cell ||| b.mask else s.cell b.cell &&& ~~~b.mask) } := by
  rw [← not8_eq_complement]
  rfl

/-- Under the mask stands the value asked for. -/
theorem State.setIconBit_and_mask : (s.setIconBit b e).cell b.cell &&& b.mask = if e then b.mask else 0#8 := by
  refine BitVec.eq_of_getLsbD_eq fun k hk => ?_
  rw [BitVec.getLsbD_and, State.setIconBit_getLsbD _ _ _ _ hk]
  cases e <;> cases hm : b.mask.getLsbD k <;> simp [hm]

/-- Outside the mask the container is as it was. -/
theorem State.setIconBit_and_not8 :
    (s.setIconBit b e).cell b.cell &&& not8 b.mask = s.cell b.cell &&& not8 b.mask := by
  refine BitVec.eq_of_getLsbD_eq fun k hk => ?_
  rw [BitVec.getLsbD_and, BitVec.getLsbD_and, State.setIconBit_getLsbD _ _ _ _ hk, not8_eq_complement]
  cases hm : b.mask.getLsbD k <;> simp [hm]

/-- Every other container is as it was. -/
theorem State.setIconBit_cell_ne {d : CellIndex} (hd : d ≠ b.cell) : (s.setIconBit b e).cell d = s.cell d :=
  s.setCell_cell_ne hd _

/-- Where the bits under the mask already have the value, nothing changes: each of them is written over with itself. -/
theorem State.setIconBit_eq_self (h : s.cell b.cell &&& b.mask = if e then b.mask else 0#8) :
    s.setIconBit b e = s := by
  refine State.ext_cells rfl (fun d => BitVec.eq_of_getLsbD_eq fun k hk => ?_) rfl rfl
  rw [State.setIconBit_getLsbD _ _ _ _ hk]
  split_ifs with hd
  · obtain ⟨rfl, hmask⟩ := hd
    have hbit := congrArg (BitVec.getLsbD · k) h
    cases e <;> simpa [hmask] using hbit.symm
  · rfl

end setIconBit

end Sys2Proof.Machine

/-! SUPPORT. The statements of 42_set_icon.md settled. -/

namespace Sys2Proof.Proofs

open Sys2Proof.Machine

/-- Settles O17: the mask is one bit, and each clause says what setting the icon's bit does under or outside it. -/
theorem setIconChangesExactlyItsBit : Obligations.SetIconChangesExactlyItsBit := fun s _ b e hb =>
  ⟨oneHot_eq_shift b.mask (iconOperand_oneHot s.cfg hb), s.setIconBit b e, exec_setIcon hb e,
    s.setIconBit_and_mask b e, s.setIconBit_and_not8 b e, fun _ => s.setIconBit_cell_ne b e, rfl, rfl, rfl,
    s.setIconBit_eq_self b e⟩

/-- Settles O18: of an icon the second setting wins; without one the first operation's refusal ends the run, and it is
the second's. -/
theorem setIconLastCallWins : Obligations.SetIconLastCallWins := by
  intro s i e f
  cases hi : iconOperand s.cfg i with
  | none => rw [runOps_cons, exec_setIcon_none hi e, thenRun_refused, exec_setIcon_none hi f]
  | some b =>
    rw [runOps_pair (exec_setIcon hi e), exec_setIcon (s := s.setIconBit b e) hi, State.setIconBit_setIconBit,
      exec_setIcon hi]

/-- Settles O16: an index below `N_ICONS` has an operand, and setting its bit changes the buffer alone. -/
theorem setIconOrsOrMasksItsContainer : Obligations.SetIconOrsOrMasksItsContainer := by
  intro s i e hi
  obtain ⟨b, hb⟩ := iconOperand_of_lt s.cfg hi
  exact ⟨b, hb, by rw [exec_setIcon hb, State.setIconBit_eq_buf_set]⟩

/-- Settles O20: an index from `N_ICONS` on has no operand. -/
theorem setIconOutsideEnumerationIsRefused : Obligations.SetIconOutsideEnumerationIsRefused :=
  fun s _ e hi => exec_setIcon_none (iconOperand_of_ge s.cfg hi) e

end Sys2Proof.Proofs

/-! SUPPORT. Exceptions (60_exceptions.md): what it takes for an operation or a step to have a next state. -/

namespace Sys2Proof.Machine

/-! ### Completion -/

/-- A word decodes to SET_ICON only with an icon of the enumeration: its operand is well-formed (30_encoding.md R67). -/
theorem decode_setIcon_lt {nIcons : Nat} {w : Word} {n : Nat} {e : Bool} (h : decode nIcons w = .setIcon n e) :
    n < nIcons := by
  have hwf := Sys2Proof.Proofs.decodedOperationIsWellFormed nIcons w
  rw [h] at hwf
  exact of_decide_eq_true hwf

/-- SET_DIGIT completes for all integers: it stages the digit or is ignored (41_set_digit.md R84, R85). -/
theorem exec_setDigit_completes (s : State) (position value : Int) :
    ∃ t, exec (.setDigit position value) s = .next t := by
  cases h : digitOperands position value with
  | none => exact ⟨s, exec_ignored (.inl ⟨position, value, rfl, h⟩) s⟩
  | some operands =>
    obtain ⟨rfl, rfl⟩ := digitOperands_some h
    exact ⟨_, exec_setDigit s operands.1 operands.2⟩

/-- The one thing an operation asks for is an icon of the enumeration (60_exceptions.md R116). -/
theorem exec_completes {i : Instr} {s : State} (hicon : ∀ n e, i = .setIcon n e → n < s.cfg.data.nIcons) :
    ∃ t, exec i s = .next t := by
  cases i with
  | init | clear | update => exact ⟨_, rfl⟩
  | setDigit position value => exact exec_setDigit_completes s position value
  | setIcon n e =>
    obtain ⟨b, hb⟩ := iconOperand_of_lt s.cfg (hicon n e rfl)
    exact ⟨_, exec_setIcon hb e⟩
  | reservedOpc0 | reservedOpc67 | reservedOpc8F | reservedIcon => exact ⟨s, rfl⟩

/-- A step completes: it idles, or the operation decoded names an icon of the enumeration if any
(60_exceptions.md R115, R116). -/
theorem step_completes (s : State) : s.Completes := by
  unfold State.Completes
  cases hinput : s.input with
  | nil => exact ⟨s, step_nil hinput⟩
  | cons w rest =>
    rw [step_cons hinput]
    exact exec_completes fun _ _ => decode_setIcon_lt

end Sys2Proof.Machine

/-! SUPPORT. The statement of 60_exceptions.md settled. -/

namespace Sys2Proof.Proofs

open Sys2Proof.Machine

/-- Settles O40: steps and operations complete, and an operation only appends to the trace. -/
theorem everyWordAndOperationCompletes : Obligations.EveryWordAndOperationCompletes := by
  refine ⟨step_completes, fun s i hicon => ?_⟩
  obtain ⟨t, ht⟩ := exec_completes hicon
  obtain ⟨events, htrace⟩ := exec_trace_append ht
  exact ⟨t, events, ht, htrace⟩

end Sys2Proof.Proofs

/-! SUPPORT. Reset and hazards (70_reset_and_hazards.md): different icons in one cell, an icon through operations that
do not put it out, and the ledger of the icons a host has switched on. -/

namespace Sys2Proof.Machine

/-! ### Different icons, and icons and digits -/

section setIconBit
variable {s : State} {i j : Nat} {b d : IconBit}

/-- Setting an icon's bit leaves the bits under a mask without that bit as they were (70_reset_and_hazards.md R125). -/
theorem State.setIconBit_and_of_disjoint {c : CellIndex} {m : Byte} (hm : b.cell = c → b.mask &&& m = 0#8) (e : Bool) :
    (s.setIconBit b e).cell c &&& m = s.cell c &&& m := by
  refine BitVec.eq_of_getLsbD_eq fun k hk => ?_
  rw [BitVec.getLsbD_and, BitVec.getLsbD_and, State.setIconBit_getLsbD _ _ _ _ hk]
  split_ifs with hbit
  · obtain ⟨rfl, hmask⟩ := hbit
    simp [not_both_of_and_zero (hm rfl) hmask]
  · rfl

/-- Setting an icon leaves every other icon as it was (42_set_icon.md R99). -/
theorem State.iconOn_setIconBit_ne (hb : iconOperand s.cfg i = some b) (hd : iconOperand s.cfg j = some d) (hij : i ≠ j)
    (e : Bool) : (s.setIconBit b e).iconOn d = s.iconOn d := by
  rw [State.iconOn, State.setIconBit_and_of_disjoint (iconOperand_masks_disjoint s.cfg hb hd hij), State.iconOn]

/-- Different icons are set in either order: no bit is that of both (42_set_icon.md R99). -/
theorem State.setIconBit_comm (hb : iconOperand s.cfg i = some b) (hd : iconOperand s.cfg j = some d) (hij : i ≠ j)
    (e f : Bool) : (s.setIconBit b e).setIconBit d f = (s.setIconBit d f).setIconBit b e := by
  refine State.ext_cells rfl (fun c => BitVec.eq_of_getLsbD_eq fun k hk => ?_) rfl rfl
  simp only [State.setIconBit_getLsbD _ _ _ _ hk]
  split_ifs with hkd hkb
  · obtain ⟨hcd, hmd⟩ := hkd
    obtain ⟨hcb, hmb⟩ := hkb
    exact absurd (iconBit_unique hb hd (hcb.symm.trans hcd) hmb hmd) hij
  · rfl
  · rfl
  · rfl

/-- Patterns are combined byte by byte (20_memory.md R39). -/
theorem joinBytes_and (hi lo hi' lo' : Byte) :
    joinBytes hi lo &&& joinBytes hi' lo' = joinBytes (hi &&& hi') (lo &&& lo') :=
  BitVec.and_append

/-- Setting an icon leaves the segment bits of every digit as they were (42_set_icon.md R99, 10_state.md R31). -/
theorem State.readDigit_setIconBit_and_seg (hb : iconOperand s.cfg i = some b) (e : Bool) (p : DigitPosition)
    (v : DigitValue) :
    (s.setIconBit b e).readDigit p &&& segPattern s.cfg v = s.readDigit p &&& segPattern s.cfg v := by
  have hlo := State.setIconBit_and_of_disjoint (s := s) (fun hc => iconOperand_segLo s.cfg hb (p := p) hc v) e
  have hhi := State.setIconBit_and_of_disjoint (s := s) (fun hc => iconOperand_segHi s.cfg hb (p := p) hc v) e
  simp only [State.readDigit, State.setIconBit_cfg, ← joinBytes_seg, joinBytes_and, hlo, hhi]

end setIconBit

/-! ### An icon through an operation -/

/-- No run changes the tables (10_state.md R55). -/
theorem runOps_cfg {ops : List Instr} {s t : State} (h : runOps ops s = .next t) : t.cfg = s.cfg :=
  runOps_keeps (P := fun u => u.cfg = s.cfg) (fun _ _ _ hu h => (exec_cfg h).trans hu) ops s t rfl h

/-- A digit, operands in range, puts out the icons of its cells and no other (70_reset_and_hazards.md R124). -/
theorem putsOut_setDigit (c : Configuration) (i : Nat) (p : DigitPosition) (v : DigitValue) :
    putsOut c i (.setDigit p.val v.val) = iconInDigit c i p := by
  simp [putsOut]

/-- SET_ICON puts out its own icon, when it switches it off (70_reset_and_hazards.md R125). -/
theorem putsOut_setIcon_eq_false {c : Configuration} {i n : Nat} {e : Bool} :
    putsOut c i (.setIcon n e) = false ↔ (n = i → e = true) := by
  simp [putsOut]

/-- An icon that is on stays on through an operation that does not put it out (70_reset_and_hazards.md R124, R125). -/
theorem exec_iconOn {op : Instr} {s t : State} {i : Nat} {b : IconBit} (hb : iconOperand s.cfg i = some b)
    (hon : s.iconOn b = true) (hop : putsOut s.cfg i op = false) (h : exec op s = .next t) : t.iconOn b = true := by
  obtain ⟨rfl, _⟩ | ⟨rfl, _⟩ | ⟨_, rfl⟩ | ⟨p, v, rfl, rfl⟩ | ⟨n, e, d, rfl, hd, rfl⟩ | ⟨rfl, _⟩ := exec_next h
  · cases hop
  · cases hop
  · exact hon
  · have howned : ¬ ownsCell s.cfg p b.cell := by
      rw [← iconInDigit_iff hb, ← putsOut_setDigit s.cfg i p v, hop]
      exact Bool.false_ne_true
    rw [State.iconOn_stageDigit_of_not_owned howned, hon]
  · by_cases hni : n = i
    · subst hni
      obtain rfl : d = b := Option.some.inj (hd.symm.trans hb)
      obtain rfl : e = true := putsOut_setIcon_eq_false.mp hop rfl
      exact State.iconOn_setIconBit_true hb
    · rw [State.iconOn_setIconBit_ne hd hb hni, hon]
  · exact hon

/-! ### The ledger of wanted icons -/

/-- Every icon the ledger holds wanted and not lost is lit in the buffer. -/
def State.LightsLedger (s : State) (l : IconLedger) : Prop :=
  ∀ i ∈ l.wanted, i ∉ l.lost → ∀ b, iconOperand s.cfg i = some b → s.iconOn b = true

/-- An icon wanted and not lost after an operation has just been switched on, or was so before and is not put out
(log 17). -/
theorem IconLedger.wanted_apply {c : Configuration} {l : IconLedger} {op : Instr} {i : Nat}
    (hwanted : i ∈ (l.apply c op).wanted) (hlost : i ∉ (l.apply c op).lost) :
    op = .setIcon i true ∨ (i ∈ l.wanted ∧ i ∉ l.lost ∧ putsOut c i op = false) := by
  cases op with
  | init | clear => exact absurd hwanted List.not_mem_nil
  | update | reservedOpc0 | reservedOpc67 | reservedOpc8F | reservedIcon => exact .inr ⟨hwanted, hlost, rfl⟩
  | setDigit position value =>
    right
    cases h : digitOperands position value with
    | none => simpa [IconLedger.apply, putsOut, h] using And.intro hwanted hlost
    | some operands =>
      simp only [IconLedger.apply, h, List.mem_append, List.mem_filter, not_or, not_and] at hwanted hlost
      obtain ⟨hkept, hdigit⟩ := hlost
      exact ⟨hwanted, hkept, by simpa [putsOut, h] using hdigit hwanted⟩
  | setIcon n e =>
    by_cases hni : n = i
    · subst hni
      cases e with
      | true => exact .inl rfl
      | false => simp [IconLedger.apply] at hwanted
    · have hin : i ≠ n := Ne.symm hni
      refine .inr ⟨?_, ?_, putsOut_setIcon_eq_false.mpr fun h => absurd h hni⟩
      · cases e <;> simpa [IconLedger.apply, hin] using hwanted
      · simpa [IconLedger.apply, hin] using hlost

/-- Every operation keeps the wanted icons that are not lost lit (70_reset_and_hazards.md R124). -/
theorem State.LightsLedger.after_exec {op : Instr} {s t : State} {l : IconLedger} (hs : s.LightsLedger l)
    (h : exec op s = .next t) : t.LightsLedger (l.apply s.cfg op) := by
  intro i hwanted hlost b hb
  rw [exec_cfg h] at hb
  obtain rfl | ⟨hbefore, hkept, hop⟩ := IconLedger.wanted_apply hwanted hlost
  · rw [exec_setIcon hb] at h
    cases h
    exact State.iconOn_setIconBit_true hb
  · exact exec_iconOn hb (hs i hbefore hkept b hb) hop h

/-- Every run keeps the wanted icons that are not lost lit. -/
theorem State.LightsLedger.after_run {ops : List Instr} {s t : State} {l : IconLedger} (hs : s.LightsLedger l)
    (h : runOps ops s = .next t) : t.LightsLedger (l.applyAll s.cfg ops) := by
  induction ops generalizing s l with
  | nil =>
    cases h
    exact hs
  | cons op ops ih =>
    obtain ⟨u, hu, h⟩ := runOps_cons_next h
    have hrest := ih (hs.after_exec hu) h
    rwa [exec_cfg hu] at hrest

/-- A host that keeps its duty up to an UPDATE has lost nothing there (60_exceptions.md R112, log 17). -/
theorem lost_eq_nil_of_iconsAfterDigits {c : Configuration} {ops : List Instr} {l : IconLedger}
    (h : iconsAfterDigits c l (ops ++ [.update]) = true) : (l.applyAll c ops).lost = [] := by
  induction ops generalizing l with
  | nil => simpa [iconsAfterDigits, IconLedger.applyAll] using h
  | cons op ops ih => exact ih (Bool.and_eq_true_iff.mp h).2

end Sys2Proof.Machine

/-! SUPPORT. The statements of 70_reset_and_hazards.md settled. -/

namespace Sys2Proof.Proofs

open Sys2Proof.Machine

/-- Settles O19: an icon's bit is neither another icon's nor a segment of a digit. -/
theorem iconsDoNotDisturbOneAnother : Obligations.IconsDoNotDisturbOneAnother := by
  intro s i j b d e f hij hb hd
  refine ⟨?_, s.setIconBit b e, exec_setIcon hb e, State.iconOn_setIconBit_ne hb hd hij e,
    State.readDigit_setIconBit_and_seg hb e⟩
  rw [runOps_pair (exec_setIcon hb e), runOps_pair (exec_setIcon hd f), exec_setIcon (s := s.setIconBit b e) hd,
    exec_setIcon (s := s.setIconBit d f) hb, State.setIconBit_comm hb hd hij]

/-- Settles O47: the tables, which say what puts the icon out, never change along the run. -/
theorem iconStaysOnUntilPutOut : Obligations.IconStaysOnUntilPutOut := by
  intro ops s t i b hb hon hops h
  have invariant : t.cfg = s.cfg ∧ t.iconOn b = true :=
    runOps_keeps_of (P := fun u => u.cfg = s.cfg ∧ u.iconOn b = true)
      (fun _ _ _ hop ⟨hcfg, hu⟩ h =>
        ⟨(exec_cfg h).trans hcfg, exec_iconOn (hcfg ▸ hb) hu (hcfg ▸ hop) h⟩) hops ⟨rfl, hon⟩ h
  exact invariant.2

/-- Settles O48: the wanted icons that are not lost are lit, and at the UPDATE none is lost. -/
theorem digitFirstIconSecondKeepsIcons : Obligations.DigitFirstIconSecondKeepsIcons := by
  intro ops s t hduty h i hwanted b hb
  have hstart : s.LightsLedger ⟨[], []⟩ := fun _ hi => absurd hi List.not_mem_nil
  have hkept : i ∉ (IconLedger.applyAll s.cfg ⟨[], []⟩ ops).lost := by
    rw [lost_eq_nil_of_iconsAfterDigits hduty]
    exact List.not_mem_nil
  exact hstart.after_run h i hwanted hkept b (runOps_cfg h ▸ hb)

/-- Settles O29: INIT zeroes the buffer, the one thing in which the two reset states differ. -/
theorem initErasesPowerOnContents : Obligations.InitErasesPowerOnContents := by
  intro cfg contents₁ contents₂ ops
  rw [runOps_cons, runOps_cons, exec_init, exec_init]
  rfl

end Sys2Proof.Proofs
